-- ==== Sys2Proof/Word.lean ====
section
/-! DEFINITION. The word types of the core: bytes, 16-bit words and addresses, register and key indices
(spec 00_scope.md R8, R11). -/

namespace Sys2Proof

/-- A u8: a V register, a timer, a byte of memory (R8). -/
abbrev Byte := BitVec 8

/-- A u16 instruction word (30_encoding.md R52). -/
abbrev Word := BitVec 16

/-- A u16 address as `pc`, `I` and a call-stack slot hold it (R8). It may name no memory (10_state.md R22, R24). -/
abbrev Addr := BitVec 16

/-- A register index 0..15, the X or Y field (30_encoding.md R54): every value names a register. -/
abbrev Reg := Fin 16

/-- A key index 0x0..0xF (40_cycle.md R74). -/
abbrev Key := Fin 16

/-- VF, the general register that doubles as the flag register (10_state.md R17). -/
abbrev VF : Reg := 15

end Sys2Proof
end

