-- ==== Sys2Proof/Syntax.lean ====
section
/-! DEFINITION. The instructions: one constructor for each row of spec/opcode_table.json (30_encoding.md R56),
and what a word decodes to (R55). -/

namespace Sys2Proof

/-- The 34 instructions of 30_encoding.md R56. `x` and `y` are register indices; `nn` is the 8-bit immediate; `addr`
is NNN already zero-extended to the 16 bits of `pc` and `I` (R54); `n` is the sprite height, a count (R54). That `addr`
fits NNN and `n` fits N is `Instr.wellFormed` (log entry 9). -/
inductive Instr where
  /-- 00E0 `CLS` (48_display.md R125). -/
  | cls
  /-- 00EE `RET` (41_control_flow.md R82). -/
  | ret
  /-- 1NNN `JP addr` (R80). -/
  | jpAddr (addr : Addr)
  /-- 2NNN `CALL addr` (R81). -/
  | callAddr (addr : Addr)
  /-- 3XNN `SE Vx, byte` (R86). -/
  | seVxByte (x : Reg) (nn : Byte)
  /-- 4XNN `SNE Vx, byte` (R87). -/
  | sneVxByte (x : Reg) (nn : Byte)
  /-- 5XY0 `SE Vx, Vy` (R88). -/
  | seVxVy (x y : Reg)
  /-- 6XNN `LD Vx, byte` (42_register_ops.md R91). -/
  | ldVxByte (x : Reg) (nn : Byte)
  /-- 7XNN `ADD Vx, byte` (R92). -/
  | addVxByte (x : Reg) (nn : Byte)
  /-- 8XY0 `LD Vx, Vy` (R93). -/
  | ldVxVy (x y : Reg)
  /-- 8XY1 `OR Vx, Vy` (R94). -/
  | orVxVy (x y : Reg)
  /-- 8XY2 `AND Vx, Vy` (R95). -/
  | andVxVy (x y : Reg)
  /-- 8XY3 `XOR Vx, Vy` (R96). -/
  | xorVxVy (x y : Reg)
  /-- 8XY4 `ADD Vx, Vy` (R97). -/
  | addVxVy (x y : Reg)
  /-- 8XY5 `SUB Vx, Vy` (R98). -/
  | subVxVy (x y : Reg)
  /-- 8XY6 `SHR Vx {, Vy}` (R100). -/
  | shrVxVy (x y : Reg)
  /-- 8XY7 `SUBN Vx, Vy` (R99). -/
  | subnVxVy (x y : Reg)
  /-- 8XYE `SHL Vx {, Vy}` (R101). -/
  | shlVxVy (x y : Reg)
  /-- 9XY0 `SNE Vx, Vy` (41_control_flow.md R89). -/
  | sneVxVy (x y : Reg)
  /-- ANNN `LD I, addr` (43_index.md R103). -/
  | ldIAddr (addr : Addr)
  /-- BNNN `JP V0, addr` (41_control_flow.md R84). -/
  | jpV0Addr (addr : Addr)
  /-- CXNN `RND Vx, byte` (44_random.md R106). -/
  | rndVxByte (x : Reg) (nn : Byte)
  /-- DXYN `DRW Vx, Vy, nibble` (48_display.md R126). -/
  | drwVxVyNibble (x y : Reg) (n : Nat)
  /-- EX9E `SKP Vx` (47_input.md R120). -/
  | skpVx (x : Reg)
  /-- EXA1 `SKNP Vx` (R121). -/
  | sknpVx (x : Reg)
  /-- FX07 `LD Vx, DT` (46_timers.md R112). -/
  | ldVxDT (x : Reg)
  /-- FX0A `LD Vx, K` (47_input.md R122). -/
  | ldVxK (x : Reg)
  /-- FX15 `LD DT, Vx` (46_timers.md R113). -/
  | ldDTVx (x : Reg)
  /-- FX18 `LD ST, Vx` (R114). -/
  | ldSTVx (x : Reg)
  /-- FX1E `ADD I, Vx` (43_index.md R104). -/
  | addIVx (x : Reg)
  /-- FX29 `LD F, Vx` (R105). -/
  | ldFVx (x : Reg)
  /-- FX33 `LD B, Vx` (45_memory_block.md R111). -/
  | ldBVx (x : Reg)
  /-- FX55 `LD [I], Vx` (R109). -/
  | ldMemVx (x : Reg)
  /-- FX65 `LD Vx, [I]` (R110). -/
  | ldVxMem (x : Reg)
  deriving DecidableEq, Repr

/-- What a word decodes to: "any pattern not matching a known opcode shape decodes to an explicit `Unknown(word)`
variant" (30_encoding.md R55). -/
inductive Decoded where
  | instr (i : Instr)
  | unknown (w : Word)
  deriving DecidableEq, Repr

end Sys2Proof
end

