-- ==== Sys2Proof/WellFormed.lean ====
section
/-! DEFINITION. Which instruction terms the encoding can express: NNN is a 12-bit address and N a 4-bit height
(30_encoding.md R53, R54). Register indices and 8-bit immediates are in range by their types. -/

namespace Sys2Proof

/-- An address operand fits the 12-bit field NNN (R54: "an unsigned 12-bit address 0..4095"). -/
def addrFits (a : Addr) : Bool := decide (a.toNat < 4096)

/-- A sprite height fits the 4-bit field N (R54: "an unsigned 4-bit immediate 0..15"). -/
def heightFits (n : Nat) : Bool := decide (n < 16)

/-- The instruction has an encoding. -/
def Instr.wellFormed : Instr → Bool
  | .cls => true
  | .ret => true
  | .jpAddr a => addrFits a
  | .callAddr a => addrFits a
  | .seVxByte _ _ => true
  | .sneVxByte _ _ => true
  | .seVxVy _ _ => true
  | .ldVxByte _ _ => true
  | .addVxByte _ _ => true
  | .ldVxVy _ _ => true
  | .orVxVy _ _ => true
  | .andVxVy _ _ => true
  | .xorVxVy _ _ => true
  | .addVxVy _ _ => true
  | .subVxVy _ _ => true
  | .shrVxVy _ _ => true
  | .subnVxVy _ _ => true
  | .shlVxVy _ _ => true
  | .sneVxVy _ _ => true
  | .ldIAddr a => addrFits a
  | .jpV0Addr a => addrFits a
  | .rndVxByte _ _ => true
  | .drwVxVyNibble _ _ n => heightFits n
  | .skpVx _ => true
  | .sknpVx _ => true
  | .ldVxDT _ => true
  | .ldVxK _ => true
  | .ldDTVx _ => true
  | .ldSTVx _ => true
  | .addIVx _ => true
  | .ldFVx _ => true
  | .ldBVx _ => true
  | .ldMemVx _ => true
  | .ldVxMem _ => true

end Sys2Proof
end

