-- ==== Sys2Proof/Decode.lean ====
section
/-! DEFINITION. The decoder, total over all 65536 words (30_encoding.md R55 to R60), the table of the opcode map
(R56), and the encoder. -/

namespace Sys2Proof

/-! ### The fields of a word (R53) -/

/-- The low four bits of a number, as an index 0..15. -/
def nibble (n : Nat) : Fin 16 := ⟨n % 16, Nat.mod_lt n (by decide)⟩

/-- G, `w[15:12]`. -/
def fieldG (w : Word) : Nat := w.toNat / 0x1000

/-- X, `w[11:8]`, a register index. -/
def fieldX (w : Word) : Reg := nibble (w.toNat / 0x100)

/-- Y, `w[7:4]`, a register index. -/
def fieldY (w : Word) : Reg := nibble (w.toNat / 0x10)

/-- N, `w[3:0]`: the sprite height, or the sub-opcode of groups 5, 8 and 9. -/
def fieldN (w : Word) : Nat := w.toNat % 0x10

/-- NN, `w[7:0]`: the 8-bit immediate, or the sub-opcode of groups E and F. -/
def fieldNN (w : Word) : Byte := BitVec.ofNat 8 w.toNat

/-- `zext_16(NNN)`, NNN = `w[11:0]` (R54). -/
def fieldNNN (w : Word) : Addr := BitVec.ofNat 16 (w.toNat % 0x1000)

/-! ### The decoder -/

/-- Group 0: only the whole words 0x00E0 and 0x00EE are instructions (R57). -/
def decode0 (w : Word) : Decoded :=
  match w.toNat with
  | 0x00E0 => .instr .cls
  | 0x00EE => .instr .ret
  | _ => .unknown w

/-- Group 5: N must be 0 (R58). -/
def decode5 (w : Word) : Decoded :=
  match fieldN w with
  | 0x0 => .instr (.seVxVy (fieldX w) (fieldY w))
  | _ => .unknown w

/-- Group 8: N selects (R56, R58). -/
def decode8 (w : Word) : Decoded :=
  match fieldN w with
  | 0x0 => .instr (.ldVxVy (fieldX w) (fieldY w))
  | 0x1 => .instr (.orVxVy (fieldX w) (fieldY w))
  | 0x2 => .instr (.andVxVy (fieldX w) (fieldY w))
  | 0x3 => .instr (.xorVxVy (fieldX w) (fieldY w))
  | 0x4 => .instr (.addVxVy (fieldX w) (fieldY w))
  | 0x5 => .instr (.subVxVy (fieldX w) (fieldY w))
  | 0x6 => .instr (.shrVxVy (fieldX w) (fieldY w))
  | 0x7 => .instr (.subnVxVy (fieldX w) (fieldY w))
  | 0xE => .instr (.shlVxVy (fieldX w) (fieldY w))
  | _ => .unknown w

/-- Group 9: N must be 0 (R58). -/
def decode9 (w : Word) : Decoded :=
  match fieldN w with
  | 0x0 => .instr (.sneVxVy (fieldX w) (fieldY w))
  | _ => .unknown w

/-- Group E: NN selects (R56, R58). -/
def decodeE (w : Word) : Decoded :=
  match (fieldNN w).toNat with
  | 0x9E => .instr (.skpVx (fieldX w))
  | 0xA1 => .instr (.sknpVx (fieldX w))
  | _ => .unknown w

/-- Group F: NN selects (R56, R58). -/
def decodeF (w : Word) : Decoded :=
  match (fieldNN w).toNat with
  | 0x07 => .instr (.ldVxDT (fieldX w))
  | 0x0A => .instr (.ldVxK (fieldX w))
  | 0x15 => .instr (.ldDTVx (fieldX w))
  | 0x18 => .instr (.ldSTVx (fieldX w))
  | 0x1E => .instr (.addIVx (fieldX w))
  | 0x29 => .instr (.ldFVx (fieldX w))
  | 0x33 => .instr (.ldBVx (fieldX w))
  | 0x55 => .instr (.ldMemVx (fieldX w))
  | 0x65 => .instr (.ldVxMem (fieldX w))
  | _ => .unknown w

/-- `decode(w)`, "a pure, total function over all 65536 words" (R55): the group nibble selects, then the sub-opcode
field of groups 0, 5, 8, 9, E and F (R56). -/
def decode (w : Word) : Decoded :=
  match fieldG w with
  | 0x0 => decode0 w
  | 0x1 => .instr (.jpAddr (fieldNNN w))
  | 0x2 => .instr (.callAddr (fieldNNN w))
  | 0x3 => .instr (.seVxByte (fieldX w) (fieldNN w))
  | 0x4 => .instr (.sneVxByte (fieldX w) (fieldNN w))
  | 0x5 => decode5 w
  | 0x6 => .instr (.ldVxByte (fieldX w) (fieldNN w))
  | 0x7 => .instr (.addVxByte (fieldX w) (fieldNN w))
  | 0x8 => decode8 w
  | 0x9 => decode9 w
  | 0xA => .instr (.ldIAddr (fieldNNN w))
  | 0xB => .instr (.jpV0Addr (fieldNNN w))
  | 0xC => .instr (.rndVxByte (fieldX w) (fieldNN w))
  | 0xD => .instr (.drwVxVyNibble (fieldX w) (fieldY w) (fieldN w))
  | 0xE => decodeE w
  | 0xF => decodeF w
  | _ => .unknown w

/-- The word `{hi, lo}`: the byte at the lower address is the more significant (20_memory.md R36). -/
def bigEndian (hi lo : Byte) : Word := hi ++ lo

/-- The instruction the decoder reads from an instruction of `nbits` bits numbered as spec/opcode_table.json numbers
them. Every instruction is one 16-bit word (R52), laid out high byte first (20_memory.md R36). -/
def decodeTableWord (nbits w : Nat) : Option Instr :=
  let bits := w % 2 ^ nbits
  match decode (bigEndian (BitVec.ofNat 8 (bits / 0x100)) (BitVec.ofNat 8 bits)) with
  | .instr i => some i
  | .unknown _ => none

/-! ### The opcode map as match and mask (R56; the `Encoding` line of each instruction's rule) -/

/-- One row of the opcode map: a word is the row's instruction when `w &&& mask = pattern`. -/
structure OpcodeRow where
  pattern : Word
  mask : Word
  deriving DecidableEq, Repr

/-- Whether a word matches a row. -/
def OpcodeRow.admits (row : OpcodeRow) (w : Word) : Bool := w &&& row.mask == row.pattern

/-- The rows of groups 0 to 7. -/
def opcodeRowsLow : List OpcodeRow :=
  [⟨0x00E0, 0xFFFF⟩, ⟨0x00EE, 0xFFFF⟩, ⟨0x1000, 0xF000⟩, ⟨0x2000, 0xF000⟩, ⟨0x3000, 0xF000⟩,
   ⟨0x4000, 0xF000⟩, ⟨0x5000, 0xF00F⟩, ⟨0x6000, 0xF000⟩, ⟨0x7000, 0xF000⟩]

/-- The rows of groups 8 to D. -/
def opcodeRowsMid : List OpcodeRow :=
  [⟨0x8000, 0xF00F⟩, ⟨0x8001, 0xF00F⟩, ⟨0x8002, 0xF00F⟩, ⟨0x8003, 0xF00F⟩, ⟨0x8004, 0xF00F⟩,
   ⟨0x8005, 0xF00F⟩, ⟨0x8006, 0xF00F⟩, ⟨0x8007, 0xF00F⟩, ⟨0x800E, 0xF00F⟩, ⟨0x9000, 0xF00F⟩,
   ⟨0xA000, 0xF000⟩, ⟨0xB000, 0xF000⟩, ⟨0xC000, 0xF000⟩, ⟨0xD000, 0xF000⟩]

/-- The rows of groups E and F. -/
def opcodeRowsHigh : List OpcodeRow :=
  [⟨0xE09E, 0xF0FF⟩, ⟨0xE0A1, 0xF0FF⟩, ⟨0xF007, 0xF0FF⟩, ⟨0xF00A, 0xF0FF⟩, ⟨0xF015, 0xF0FF⟩,
   ⟨0xF018, 0xF0FF⟩, ⟨0xF01E, 0xF0FF⟩, ⟨0xF029, 0xF0FF⟩, ⟨0xF033, 0xF0FF⟩, ⟨0xF055, 0xF0FF⟩,
   ⟨0xF065, 0xF0FF⟩]

/-- All 34 rows of the opcode map, in the order of spec/opcode_table.json. -/
def opcodeRows : List OpcodeRow := opcodeRowsLow ++ opcodeRowsMid ++ opcodeRowsHigh

/-- The row of an instruction. -/
def Instr.row : Instr → OpcodeRow
  | .cls => ⟨0x00E0, 0xFFFF⟩
  | .ret => ⟨0x00EE, 0xFFFF⟩
  | .jpAddr _ => ⟨0x1000, 0xF000⟩
  | .callAddr _ => ⟨0x2000, 0xF000⟩
  | .seVxByte _ _ => ⟨0x3000, 0xF000⟩
  | .sneVxByte _ _ => ⟨0x4000, 0xF000⟩
  | .seVxVy _ _ => ⟨0x5000, 0xF00F⟩
  | .ldVxByte _ _ => ⟨0x6000, 0xF000⟩
  | .addVxByte _ _ => ⟨0x7000, 0xF000⟩
  | .ldVxVy _ _ => ⟨0x8000, 0xF00F⟩
  | .orVxVy _ _ => ⟨0x8001, 0xF00F⟩
  | .andVxVy _ _ => ⟨0x8002, 0xF00F⟩
  | .xorVxVy _ _ => ⟨0x8003, 0xF00F⟩
  | .addVxVy _ _ => ⟨0x8004, 0xF00F⟩
  | .subVxVy _ _ => ⟨0x8005, 0xF00F⟩
  | .shrVxVy _ _ => ⟨0x8006, 0xF00F⟩
  | .subnVxVy _ _ => ⟨0x8007, 0xF00F⟩
  | .shlVxVy _ _ => ⟨0x800E, 0xF00F⟩
  | .sneVxVy _ _ => ⟨0x9000, 0xF00F⟩
  | .ldIAddr _ => ⟨0xA000, 0xF000⟩
  | .jpV0Addr _ => ⟨0xB000, 0xF000⟩
  | .rndVxByte _ _ => ⟨0xC000, 0xF000⟩
  | .drwVxVyNibble _ _ _ => ⟨0xD000, 0xF000⟩
  | .skpVx _ => ⟨0xE09E, 0xF0FF⟩
  | .sknpVx _ => ⟨0xE0A1, 0xF0FF⟩
  | .ldVxDT _ => ⟨0xF007, 0xF0FF⟩
  | .ldVxK _ => ⟨0xF00A, 0xF0FF⟩
  | .ldDTVx _ => ⟨0xF015, 0xF0FF⟩
  | .ldSTVx _ => ⟨0xF018, 0xF0FF⟩
  | .addIVx _ => ⟨0xF01E, 0xF0FF⟩
  | .ldFVx _ => ⟨0xF029, 0xF0FF⟩
  | .ldBVx _ => ⟨0xF033, 0xF0FF⟩
  | .ldMemVx _ => ⟨0xF055, 0xF0FF⟩
  | .ldVxMem _ => ⟨0xF065, 0xF0FF⟩

/-! ### The encoder -/

/-- The operand bits of an NNN form. -/
def bitsNNN (a : Addr) : Nat := a.toNat % 0x1000

/-- The operand bits of an XNN form. -/
def bitsXNN (x : Reg) (nn : Byte) : Nat := 0x100 * x.val + nn.toNat

/-- The operand bits of an XY form. -/
def bitsXY (x y : Reg) : Nat := 0x100 * x.val + 0x10 * y.val

/-- The operand bits of an X form. -/
def bitsX (x : Reg) : Nat := 0x100 * x.val

/-- The operand bits of an instruction, at the places of R53. -/
def Instr.operandBits : Instr → Nat
  | .cls => 0
  | .ret => 0
  | .jpAddr a => bitsNNN a
  | .callAddr a => bitsNNN a
  | .seVxByte x nn => bitsXNN x nn
  | .sneVxByte x nn => bitsXNN x nn
  | .seVxVy x y => bitsXY x y
  | .ldVxByte x nn => bitsXNN x nn
  | .addVxByte x nn => bitsXNN x nn
  | .ldVxVy x y => bitsXY x y
  | .orVxVy x y => bitsXY x y
  | .andVxVy x y => bitsXY x y
  | .xorVxVy x y => bitsXY x y
  | .addVxVy x y => bitsXY x y
  | .subVxVy x y => bitsXY x y
  | .shrVxVy x y => bitsXY x y
  | .subnVxVy x y => bitsXY x y
  | .shlVxVy x y => bitsXY x y
  | .sneVxVy x y => bitsXY x y
  | .ldIAddr a => bitsNNN a
  | .jpV0Addr a => bitsNNN a
  | .rndVxByte x nn => bitsXNN x nn
  | .drwVxVyNibble x y n => bitsXY x y + n % 0x10
  | .skpVx x => bitsX x
  | .sknpVx x => bitsX x
  | .ldVxDT x => bitsX x
  | .ldVxK x => bitsX x
  | .ldDTVx x => bitsX x
  | .ldSTVx x => bitsX x
  | .addIVx x => bitsX x
  | .ldFVx x => bitsX x
  | .ldBVx x => bitsX x
  | .ldMemVx x => bitsX x
  | .ldVxMem x => bitsX x

/-- The word of an instruction: its row's fixed bits and its operand bits. -/
def encode (i : Instr) : Word := BitVec.ofNat 16 (i.row.pattern.toNat + i.operandBits)

end Sys2Proof
end

