-- ==== Sys2Proof/Config.lean ====
section
/-! DEFINITION. What is fixed for a machine: the sizes the source gives (00_scope.md R8), the types of the
parameters it leaves open (R9), and the free value RANDOM. The values this spec takes for the open parameters
stand in Sys2Proof/Machine/Params.lean. -/

namespace Sys2Proof

/-- MEM_SIZE, 4096 bytes (R8). -/
abbrev Config.memSize : Nat := 4096

/-- PROGRAM_BASE, where `load` puts the program and where `pc` starts (R8; 10_state.md R19). -/
abbrev Config.programBase : Nat := 0x200

/-- MAX_ROM_LEN = 4096 - 0x200 (R8). -/
abbrev Config.maxRomLen : Nat := 4096 - 0x200

/-- STACK_DEPTH, 16 return addresses (R8). -/
abbrev Config.stackDepth : Nat := 16

/-- GLYPH_SIZE, 5 bytes for each hex digit (R8). -/
abbrev Config.glyphSize : Nat := 5

/-- The values of SHIFT_SOURCE (R9): which register 8XY6 and 8XYE shift. -/
inductive ShiftSource where
  | vx
  | vy
  deriving DecidableEq, Repr

/-- The values of MEM_BLOCK_I_MODE (R9): whether FX55 and FX65 advance `I`. -/
inductive MemBlockIMode where
  | unchanged
  | advance
  deriving DecidableEq, Repr

/-- RANDOM (R9): the `n`-th byte of the host's random source where the host's choice is left free. No value of it
can be proved: "No distribution is specified" (44_random.md R107). DESIGN CHOICE, log entry 2. -/
opaque Config.randomByte : Nat → Byte

end Sys2Proof
end

