-- ==== Sys2Proof/Machine/Params.lean ====
section
/-! DEFINITION. The values this spec takes for the parameters the source leaves open (00_scope.md R9;
92_eei_decisions.md D5, D6, D12, D13, D14). DESIGN CHOICE, log entry 1: the model fixes these values; every operation
that depends on one of the three behaviour parameters takes it as an argument, so that the other values are
modelled too. -/

namespace Sys2Proof.Machine

/-- FONT_BASE (D5). -/
def Params.fontBase : Nat := 0x050

/-- FONT_DATA, digits 0 to 7 (10_state.md R31, D6). -/
def Params.fontDataLow : List Byte :=
  [0xF0, 0x90, 0x90, 0x90, 0xF0, 0x20, 0x60, 0x20, 0x20, 0x70,
   0xF0, 0x10, 0xF0, 0x80, 0xF0, 0xF0, 0x10, 0xF0, 0x10, 0xF0,
   0x90, 0x90, 0xF0, 0x10, 0x10, 0xF0, 0x80, 0xF0, 0x10, 0xF0,
   0xF0, 0x80, 0xF0, 0x90, 0xF0, 0xF0, 0x10, 0x20, 0x40, 0x40]

/-- FONT_DATA, digits 8 to F (R31, D6). -/
def Params.fontDataHigh : List Byte :=
  [0xF0, 0x90, 0xF0, 0x90, 0xF0, 0xF0, 0x90, 0xF0, 0x10, 0xF0,
   0xF0, 0x90, 0xF0, 0x90, 0x90, 0xE0, 0x90, 0xE0, 0x90, 0xE0,
   0xF0, 0x80, 0x80, 0x80, 0xF0, 0xE0, 0x90, 0x90, 0x90, 0xE0,
   0xF0, 0x80, 0xF0, 0x80, 0xF0, 0xF0, 0x80, 0xF0, 0x80, 0x80]

/-- FONT_DATA, 80 bytes, 5 for each hex digit (R31, D6). -/
def Params.fontData : List Byte := Params.fontDataLow ++ Params.fontDataHigh

/-- The font lies in the reserved region: `FONT_BASE + 80 <= 0x200` (R9, R31). -/
def Params.fontFits (base : Nat) (data : List Byte) : Bool := data.length == 80 && decide (base + 80 ≤ 0x200)

/-- SHIFT_SOURCE (D12). -/
def Params.shiftSource : ShiftSource := .vx

/-- I_ADD_SETS_VF (D13). -/
def Params.iAddSetsVF : Bool := false

/-- MEM_BLOCK_I_MODE (D14). -/
def Params.memBlockIMode : MemBlockIMode := .unchanged

end Sys2Proof.Machine
end

