-- ==== Sys2Proof/Machine/State.lean ====
section
/-! DEFINITION. The state of the core: every piece of 10_state.md's state tuple, as plain data, and the model's own two
fields for the free bytes of CXNN; the reasons a step can stop; the state right after creation. -/

namespace Sys2Proof.Machine

/-- The error kinds `step` raises, with the info each records (10_state.md R34; 60_exceptions.md R130). -/
inductive ErrorKind where
  /-- An access at an address >= 4096, with that address, an exact natural (R131). -/
  | memoryFault (addr : Nat)
  /-- 2NNN with 16 return addresses stored (R132). -/
  | stackOverflow
  /-- 00EE with none stored (R132). -/
  | stackUnderflow
  /-- A word that decodes to Unknown was executed (R133). -/
  | unknownOpcode (word : Word)
  deriving DecidableEq, Repr

/-- The error kind of `load`, which never enters `Faulted` (60_exceptions.md R134). -/
inductive LoadError where
  | romTooLarge
  deriving DecidableEq, Repr

/-- An error record: the kind and its info, and the address the faulting instruction was fetched from (10_state.md
R34). -/
structure ErrorRecord where
  kind : ErrorKind
  fetchPc : Addr
  deriving DecidableEq, Repr

/-- The engine state (10_state.md R33). -/
inductive Engine where
  | running
  | waitingForKey (r : Reg)
  | faulted (e : ErrorRecord)
  deriving DecidableEq, Repr

/-- Memory: the bytes that differ from their reset contents, addresses strictly rising (log entry 8). What an unlisted
address reads as is `Memory.resetByte` (Ops.lean), and the form is `Memory.wf`. -/
abbrev Memory := List Host.Cell

/-- The display: 32 rows, row 0 at the top, of 64 pixels, column 0 at the left (10_state.md R29). `DISP[col][row]` is
`Display.pixel` (Ops.lean). -/
abbrev Display := Vector (Vector Bool 64) 32

/-- The complete state of the core (10_state.md, opening: "Nothing else is state"), under the spec's names, and after
it the model's own two fields. -/
structure State where
  /-- V0..VF (R16); VF is also the flag register (R17). -/
  V : Vector Byte 16
  /-- The index register (R24). -/
  I : Addr
  /-- The program counter (R19). -/
  pc : Addr
  /-- The stack pointer, the number of return addresses stored (R25). -/
  SP : BitVec 8
  /-- The call stack (R26). -/
  STACK : Vector Addr 16
  /-- The delay timer (R27). -/
  DT : Byte
  /-- The sound timer (R27). -/
  ST : Byte
  /-- The keypad latch, true = pressed (R28). -/
  KEY : Vector Bool 16
  /-- The display buffer (R29). -/
  DISP : Display
  /-- Memory (R30). -/
  MEM : Memory
  /-- The engine state (R33). -/
  engine : Engine
  /-- MODEL'S OWN: the bytes of the random source the host has handed over and no CXNN has consumed, oldest first
  (40_cycle.md R63; 44_random.md R107; log entry 2). -/
  randInput : List Byte
  /-- MODEL'S OWN: how many free draws were made when `randInput` was empty (log entry 2). -/
  draws : Nat
  deriving DecidableEq, Repr

/-- The reasons the machine stops outside what the spec describes. -/
inductive Fault where
  /-- Raised by `execCallAddr` and `execRet` when SP names no slot of the call stack (SP > 16). Safe: 10_state.md R25
  states the invariant SP <= 16, so no run reaches such a state, and the spec gives it no meaning (log entry 4). -/
  | stackSlotAbsent
  deriving DecidableEq, Repr

/-- The reasons the model does not admit what it is asked to run. -/
inductive Refusal where
  /-- Raised only by an arm of `exec` whose instruction has no meaning yet; safe. No arm is. -/
  | notModelled (mnemonic : String)
  /-- Raised by `hostStep` alone, on a `load` after a successful one or after the first step. Safe: the host calls `load`
  once and before the first `step` (70_reset_and_hazards.md R149), and the spec's treatment of any other is `refuse`
  (93_implementation_defined.md row 20; log entry 10). No instruction answers it. -/
  | loadOutOfOrder
  deriving DecidableEq, Repr

/-- The machine right after its creation (70_reset_and_hazards.md R146, R147): everything 0 or released, the display
clear, the font in memory (memory lists nothing: it holds its reset contents), `pc` at 0x200, the engine Running.
DESIGN CHOICE for the model's own two fields, log entry 2. -/
def State.reset : State where
  V := Vector.replicate 16 0
  I := 0
  pc := 0x200
  SP := 0
  STACK := Vector.replicate 16 0
  DT := 0
  ST := 0
  KEY := Vector.replicate 16 false
  DISP := Vector.replicate 32 (Vector.replicate 64 false)
  MEM := []
  engine := .running
  randInput := []
  draws := 0

end Sys2Proof.Machine
end

