-- ==== Sys2Proof/Machine/Ops.lean ====
section
/-! DEFINITION. The named operations over registers, the call stack, memory, the display and the engine that the
instructions share; taking an error (60_exceptions.md R137); the fetch, the default advance and the wait step of the
cycle (40_cycle.md R64 to R67; 47_input.md R123). -/

namespace Sys2Proof.Machine

/-! ### Register accessors (00_scope.md R12) -/

/-- `x[r]`, a read of general register `r`. -/
def State.reg (s : State) (r : Reg) : Byte := s.V[r.val]

/-- `x[r] <- v`. -/
def State.setReg (s : State) (r : Reg) (v : Byte) : State := { s with V := s.V.set r.val v }

/-- `I <- a`. -/
def State.setI (s : State) (a : Addr) : State := { s with I := a }

/-- `pc <- a`. -/
def State.setPc (s : State) (a : Addr) : State := { s with pc := a }

/-- `SP <- n`. -/
def State.setSP (s : State) (n : BitVec 8) : State := { s with SP := n }

/-- `STACK[k]`. -/
def State.slot (s : State) (k : Fin 16) : Addr := s.STACK[k.val]

/-- `STACK[k] <- a`. -/
def State.setSlot (s : State) (k : Fin 16) (a : Addr) : State := { s with STACK := s.STACK.set k.val a }

/-- `DT <- v`. -/
def State.setDT (s : State) (v : Byte) : State := { s with DT := v }

/-- `ST <- v`. -/
def State.setST (s : State) (v : Byte) : State := { s with ST := v }

/-- `KEY[k]`, true = pressed. -/
def State.key (s : State) (k : Key) : Bool := s.KEY[k.val]

/-- `KEY[k] <- p`. -/
def State.setKey (s : State) (k : Key) (p : Bool) : State := { s with KEY := s.KEY.set k.val p }

/-- The whole display is replaced. -/
def State.setDISP (s : State) (d : Display) : State := { s with DISP := d }

/-- The whole memory is replaced. -/
def State.setMEM (s : State) (m : Memory) : State := { s with MEM := m }

/-- `engine <- e`. -/
def State.setEngine (s : State) (e : Engine) : State := { s with engine := e }

/-- The bytes of the random source at hand are replaced (model's own field, log entry 2). -/
def State.setRandInput (s : State) (bs : List Byte) : State := { s with randInput := bs }

/-- The number of free draws is replaced (model's own field, log entry 2). -/
def State.setDraws (s : State) (n : Nat) : State := { s with draws := n }

/-! ### Memory (10_state.md R30, R31; 20_memory.md R39, R42) -/

/-- The reset contents of a byte, which an unlisted address reads as: the font at FONT_BASE, zero elsewhere
(10_state.md R30, R31; 20_memory.md R44). -/
def Memory.resetByte (addr : Nat) : Byte :=
  if addr < Params.fontBase then 0 else Params.fontData.getD (addr - Params.fontBase) 0

/-- The byte at an address. -/
def Memory.read : Memory → Nat → Byte
  | [], addr => Memory.resetByte addr
  | (k, v) :: rest, addr => if k = addr then v else Memory.read rest addr

/-- Lists a byte in its place, in rising order. -/
def Memory.insert : Memory → Nat → Byte → Memory
  | [], addr, v => [(addr, v)]
  | (k, w) :: rest, addr, v =>
    if k < addr then (k, w) :: Memory.insert rest addr v
    else if k = addr then (addr, v) :: rest
    else (addr, v) :: (k, w) :: rest

/-- `MEM[addr] <- v`. Writing the reset contents unlists the address, which keeps the canonical form. -/
def Memory.write (m : Memory) (addr : Nat) (v : Byte) : Memory :=
  if v = Memory.resetByte addr then m.filter (fun c => c.1 != addr) else Memory.insert m addr v

/-- The canonical form: addresses strictly rising and below 4096, no byte equal to its reset contents. -/
def Memory.wf : Memory → Bool
  | [] => true
  | (k, v) :: rest =>
    decide (k < Config.memSize) && (v != Memory.resetByte k) && rest.all (fun c => decide (k < c.1)) && Memory.wf rest

/-- The `n` bytes from `addr` on. -/
def Memory.readBytes (m : Memory) (addr : Nat) : Nat → List Byte
  | 0 => []
  | n + 1 => m.read addr :: Memory.readBytes m (addr + 1) n

/-- Bytes are written one after another from `addr` on. -/
def Memory.writeBytes : Memory → Nat → List Byte → Memory
  | m, _, [] => m
  | m, addr, b :: bs => Memory.writeBytes (m.write addr b) (addr + 1) bs

/-- `MemRead(addr, 1)` (00_scope.md R13): MemoryFault at addr >= 4096, else the byte. -/
def Memory.memRead (m : Memory) (addr : Nat) : Except ErrorKind Byte :=
  if Config.memSize ≤ addr then .error (.memoryFault addr) else .ok (m.read addr)

/-- `check(lo, hi)` (R13): the lowest address of `lo..hi` that is >= 4096, if there is one. -/
def checkRange (lo hi : Nat) : Option Nat :=
  if Config.memSize ≤ hi then some (max lo Config.memSize) else none

/-! ### Taking an error (60_exceptions.md R137) -/

/-- Error entry: `engine <- Faulted(kind, info, fetch_pc)`, nothing else changes (R137; 40_cycle.md R69). -/
def State.enterFaulted (s : State) (kind : ErrorKind) (fetchPc : Addr) : State :=
  s.setEngine (.faulted ⟨kind, fetchPc⟩)

/-- `raise E(info)` during execution (00_scope.md R13): `pc` has already advanced by 2, so the instruction was fetched
from `pc - 2` (40_cycle.md R67, R69; DEDUCED, log entry 7). There is no return from an error (R138). -/
def State.raise (s : State) (kind : ErrorKind) : State := s.enterFaulted kind (s.pc - 2)

/-- The shape of an instruction that accesses the `len` bytes from `addr` on: the whole range is checked before any
write (45_memory_block.md R108), then the instruction goes on as `done`. -/
def State.accessing (s : State) (addr len : Nat) (done : State) : Host.Outcome State Fault Refusal :=
  match checkRange addr (addr + len - 1) with
  | some a => .next (s.raise (.memoryFault a))
  | none => .next done

/-! ### The call stack (10_state.md R25, R26) -/

/-- `STACK[SP] <- a; SP <- SP + 1`, for an SP below 16. -/
def State.push (s : State) (a : Addr) : State :=
  (s.setSlot (nibble s.SP.toNat) a).setSP (s.SP + 1)

/-- `SP <- SP - 1`, then `STACK[SP]`: the popped address and the state after; the slot keeps its value (R26). -/
def State.pop (s : State) : Addr × State :=
  (s.slot (nibble (s.SP.toNat - 1)), s.setSP (s.SP - 1))

/-! ### The display (10_state.md R29; 48_display.md R125 to R127) -/

/-- `DISP[col][row]`. -/
def Display.pixel (d : Display) (col : Fin 64) (row : Fin 32) : Bool := (d[row.val])[col.val]

/-- `DISP[col][row] <- DISP[col][row] ^ 1`. -/
def Display.toggle (d : Display) (col : Fin 64) (row : Fin 32) : Display :=
  d.set row.val ((d[row.val]).set col.val (!d.pixel col row))

/-- Every cell 0. -/
def Display.blank : Display := Vector.replicate 32 (Vector.replicate 64 false)

/-- A drawing in progress: the display and the collision found so far. -/
structure Drawing where
  disp : Display
  collision : Bool
  deriving DecidableEq, Repr

/-- `(x0 + c) mod 64`, a column. -/
def colMod (n : Nat) : Fin 64 := ⟨n % 64, Nat.mod_lt n (by decide)⟩

/-- `(y0 + r) mod 32`, a row. -/
def rowMod (n : Nat) : Fin 32 := ⟨n % 32, Nat.mod_lt n (by decide)⟩

/-- One set sprite bit at column `c` and row `r`, both taken modulo the display's size (R126): a pixel that is 1 is a
collision, and the pixel is inverted. -/
def Drawing.plot (g : Drawing) (c r : Nat) : Drawing :=
  ⟨g.disp.toggle (colMod c) (rowMod r), g.collision || g.disp.pixel (colMod c) (rowMod r)⟩

/-- The columns `c` of `cols` of one sprite row `b`, bit `7 - c` first to last: the most significant bit is the
leftmost pixel (R126). -/
def Drawing.rowBits (b : Byte) (x0 r : Nat) : List Nat → Drawing → Drawing
  | [], g => g
  | c :: cols, g => Drawing.rowBits b x0 r cols (if b.getLsbD (7 - c) then g.plot (x0 + c) r else g)

/-- The sprite rows one after another, from row `r` down (R126). -/
def Drawing.rows (x0 : Nat) : Nat → List Byte → Drawing → Drawing
  | _, [], g => g
  | r, b :: bs, g => Drawing.rows x0 (r + 1) bs (Drawing.rowBits b x0 r [0, 1, 2, 3, 4, 5, 6, 7] g)

/-! ### V0..Vx as a block (45_memory_block.md R108: "Inclusive range semantics") -/

/-- The values of V0..Vx. -/
def State.regsUpTo (s : State) (x : Reg) : List Byte := s.V.toList.take (x.val + 1)

/-- `x[k] <- b` for the bytes one after another, from register `k` on. -/
def State.loadRegs : State → Nat → List Byte → State
  | s, _, [] => s
  | s, k, b :: bs => State.loadRegs (s.setReg (nibble k) b) (k + 1) bs

/-- What FX55 and FX65 do to `I`: nothing, or `I <- trunc16(I + X + 1)` (R108, MEM_BLOCK_I_MODE). -/
def State.blockAdvance (mode : MemBlockIMode) (x : Reg) (s : State) : State :=
  match mode with
  | .unchanged => s
  | .advance => s.setI (BitVec.ofNat 16 (s.I.toNat + x.val + 1))

/-! ### The random source (44_random.md R106, R107) -/

/-- `RandomByte()`: the next byte the host handed over; when none is at hand, a free value. Exactly one byte is
consumed (R107; log entry 2). -/
def State.drawByte (s : State) : Byte × State :=
  match s.randInput with
  | b :: bs => (b, s.setRandInput bs)
  | [] => (Config.randomByte s.draws, s.setDraws (s.draws + 1))

/-! ### The cycle (40_cycle.md R64 to R67) -/

/-- The fetch of the big-endian word at `[pc, pc+1]`: the high byte first, then the low byte (R65, R66). -/
def State.fetch (s : State) : Except ErrorKind Word :=
  match s.MEM.memRead s.pc.toNat with
  | .error e => .error e
  | .ok hi =>
    match s.MEM.memRead (s.pc.toNat + 1) with
    | .error e => .error e
    | .ok lo => .ok (bigEndian hi lo)

/-- `pc <- trunc16(pc + 2)`: the default advance (R67) and a taken skip (41_control_flow.md R85). -/
def State.advance (s : State) : State := s.setPc (s.pc + 2)

/-- Executing `Unknown(w)` (60_exceptions.md R133; 40_cycle.md R68). -/
def execUnknown (w : Word) (s : State) : Host.Outcome State Fault Refusal := .next (s.raise (.unknownOpcode w))

/-- The least pressed key (47_input.md R123). -/
def State.leastPressed (s : State) : Option Nat := s.KEY.toList.findIdx? (fun p => p)

/-- `wait_step(r)` (R123): the least pressed key goes to register `r` and the engine runs again; with no key pressed
nothing changes. -/
def waitStep (r : Reg) (s : State) : State :=
  match s.leastPressed with
  | some k => (s.setReg r (BitVec.ofNat 8 k)).setEngine .running
  | none => s

end Sys2Proof.Machine
end

