-- ==== Sys2Proof/Machine/Operands.lean ====
section
/-! DEFINITION. The operand forms and the results computed from operands: every value is an exact natural, narrowed
explicitly at the destination's width (00_scope.md R11; 42_register_ops.md R102). -/

namespace Sys2Proof.Machine

/-- `trunc8(a + b)` (R92, R97). -/
def addBytes (a b : Byte) : Byte := BitVec.ofNat 8 (a.toNat + b.toNat)

/-- `trunc8(m - s + 256)` (R98, R99). -/
def subBytes (minuend subtrahend : Byte) : Byte := BitVec.ofNat 8 (minuend.toNat + 256 - subtrahend.toNat)

/-- `v >> 1` (R100). -/
def shiftRightByte (v : Byte) : Byte := v >>> 1

/-- `trunc8(v << 1)` (R101). -/
def shiftLeftByte (v : Byte) : Byte := BitVec.ofNat 8 (v.toNat * 2)

/-- The value 8XY6 and 8XYE shift: `(SHIFT_SOURCE = Vx) ? x[X] : x[Y]` (R100). -/
def State.shiftOperand (source : ShiftSource) (x y : Reg) (s : State) : Byte :=
  match source with
  | .vx => s.reg x
  | .vy => s.reg y

/-- Result, then flag: `x[X]` is written first and `x[15]` last, so with X = 15 VF ends holding the flag (R90). -/
def State.setResultAndFlag (s : State) (x : Reg) (result flag : Byte) : State := (s.setReg x result).setReg VF flag

/-- A conditional skip: one more `pc <- trunc16(pc + 2)` when the condition holds (41_control_flow.md R85). -/
def State.skipIf (s : State) (c : Bool) : State := if c then s.advance else s

/-- The low nibble of a register, `x[X] & 0x0F`, as an index 0..15 (47_input.md R119; 43_index.md R105). -/
def State.lowNibble (s : State) (x : Reg) : Fin 16 := nibble (s.reg x).toNat

/-- The address of a glyph, `FONT_BASE + 5 * digit` (R105). -/
def glyphAddr (digit : Fin 16) : Addr := BitVec.ofNat 16 (Params.fontBase + Config.glyphSize * digit.val)

/-- The effective address in `I`, an exact natural (20_memory.md R39). -/
def State.indexAddr (s : State) : Nat := s.I.toNat

/-- The three decimal digits of a byte: hundreds, tens, ones (45_memory_block.md R111). -/
def bcdDigits (v : Byte) : List Byte :=
  [BitVec.ofNat 8 (v.toNat / 100), BitVec.ofNat 8 (v.toNat / 10 % 10), BitVec.ofNat 8 (v.toNat % 10)]

end Sys2Proof.Machine
end

