-- ==== Sys2Proof/Machine/ControlFlow.lean ====
section
/-! DEFINITION. Control flow: jump, call, return, conditional skips (spec 41_control_flow.md R80 to R89). On entry `pc`
is the instruction's address plus 2 (40_cycle.md R67). -/

namespace Sys2Proof.Machine

/-- 1NNN (R80): `pc <- zext_16(NNN)`. -/
def execJpAddr (addr : Addr) (s : State) : Host.Outcome State Fault Refusal := .next (s.setPc addr)

/-- 2NNN (R81): StackOverflow with 16 return addresses stored; else push `pc` and jump. SP above 16 names no slot
(log entry 4). -/
def execCallAddr (addr : Addr) (s : State) : Host.Outcome State Fault Refusal :=
  if s.SP.toNat = Config.stackDepth then .next (s.raise .stackOverflow)
  else if Config.stackDepth < s.SP.toNat then .fault .stackSlotAbsent
  else .next ((s.push s.pc).setPc addr)

/-- 00EE (R82): StackUnderflow with none stored; else pop into `pc`. SP above 16 names no slot (log entry 4). -/
def execRet (s : State) : Host.Outcome State Fault Refusal :=
  if s.SP.toNat = 0 then .next (s.raise .stackUnderflow)
  else if Config.stackDepth < s.SP.toNat then .fault .stackSlotAbsent
  else .next (s.pop.2.setPc s.pop.1)

/-- BNNN (R84): `pc <- trunc16(zext_16(NNN) + x[0])`. -/
def execJpV0Addr (addr : Addr) (s : State) : Host.Outcome State Fault Refusal :=
  .next (s.setPc (BitVec.ofNat 16 (addr.toNat + (s.reg 0).toNat)))

/-- 3XNN (R86): skip if `x[X] = NN`. -/
def execSeVxByte (x : Reg) (nn : Byte) (s : State) : Host.Outcome State Fault Refusal :=
  .next (s.skipIf (s.reg x == nn))

/-- 4XNN (R87): skip if `x[X] != NN`. -/
def execSneVxByte (x : Reg) (nn : Byte) (s : State) : Host.Outcome State Fault Refusal :=
  .next (s.skipIf (s.reg x != nn))

/-- 5XY0 (R88): skip if `x[X] = x[Y]`. -/
def execSeVxVy (x y : Reg) (s : State) : Host.Outcome State Fault Refusal :=
  .next (s.skipIf (s.reg x == s.reg y))

/-- 9XY0 (R89): skip if `x[X] != x[Y]`. -/
def execSneVxVy (x y : Reg) (s : State) : Host.Outcome State Fault Refusal :=
  .next (s.skipIf (s.reg x != s.reg y))

end Sys2Proof.Machine
end

