-- ==== Sys2Proof/Machine/Flags.lean ====
section
/-! DEFINITION. The values VF takes as a flag (10_state.md R23), each computed exactly on the naturals
(00_scope.md R11). -/

namespace Sys2Proof.Machine

/-- `bool(c)`, 1 if the condition holds, else 0 (R11). -/
def boolByte (c : Bool) : Byte := if c then 1 else 0

/-- 8XY4: 1 on unsigned overflow (42_register_ops.md R97). -/
def carryFlag (a b : Byte) : Byte := boolByte (decide (255 < a.toNat + b.toNat))

/-- 8XY5, 8XY7: 1 if no borrow occurred, minuend >= subtrahend (R98, R99). -/
def noBorrowFlag (minuend subtrahend : Byte) : Byte := boolByte (decide (subtrahend.toNat ≤ minuend.toNat))

/-- 8XY6: the least significant bit of the value before the shift (R100). -/
def shiftedOutRight (v : Byte) : Byte := v &&& 0x01

/-- 8XYE: the most significant bit of the value before the shift (R101). -/
def shiftedOutLeft (v : Byte) : Byte := (v >>> 7) &&& 0x01

/-- FX1E with I_ADD_SETS_VF: 1 when the sum passes 0x0FFF (43_index.md R104). -/
def pastAddressSpaceFlag (sum : Nat) : Byte := boolByte (decide (0x0FFF < sum))

end Sys2Proof.Machine
end

