-- ==== Sys2Proof/Machine/DisplayOps.lean ====
section
/-! DEFINITION. Display (spec 48_display.md R125 to R127). -/

namespace Sys2Proof.Machine

/-- 00E0 (R125): every cell 0, VF unchanged. -/
def execCls (s : State) : Host.Outcome State Fault Refusal := .next (s.setDISP Display.blank)

/-- The drawing of DXYN: the `n` sprite rows at `I` drawn at `(x[X], x[Y])` on the display (R126). -/
def State.drawing (s : State) (x y : Reg) (n : Nat) : Drawing :=
  Drawing.rows (s.reg x).toNat (s.reg y).toNat (s.MEM.readBytes s.indexAddr n) ⟨s.DISP, false⟩

/-- DXYN with its range checked: the display, and VF = collision, written last (R126). -/
def State.drawn (s : State) (x y : Reg) (n : Nat) : State :=
  (s.setDISP (s.drawing x y n).disp).setReg VF (boolByte (s.drawing x y n).collision)

/-- DXYN (R126): with N > 0 the sprite's range is checked first; with N = 0 nothing is read or drawn and VF = 0. -/
def execDrwVxVyNibble (x y : Reg) (n : Nat) (s : State) : Host.Outcome State Fault Refusal :=
  if n = 0 then .next (s.drawn x y 0) else s.accessing s.indexAddr n (s.drawn x y n)

end Sys2Proof.Machine
end

