-- ==== Sys2Proof/Machine/IndexOps.lean ====
section
/-! DEFINITION. Index register operations (spec 43_index.md R103 to R105). None accesses memory. -/

namespace Sys2Proof.Machine

/-- ANNN (R103): `I <- zext_16(NNN)`. -/
def execLdIAddr (addr : Addr) (s : State) : Host.Outcome State Fault Refusal := .next (s.setI addr)

/-- FX1E with I_ADD_SETS_VF given (R104): `I <- trunc16(I + x[X])`, then VF where the parameter says so. -/
def addIWith (setsVF : Bool) (x : Reg) (s : State) : State :=
  let sum := s.I.toNat + (s.reg x).toNat
  let t := s.setI (BitVec.ofNat 16 sum)
  if setsVF then t.setReg VF (pastAddressSpaceFlag sum) else t

/-- FX1E (R104), I_ADD_SETS_VF as this spec takes it. -/
def execAddIVx (x : Reg) (s : State) : Host.Outcome State Fault Refusal := .next (addIWith Params.iAddSetsVF x s)

/-- FX29 (R105): `I <- FONT_BASE + 5 * (x[X] & 0x0F)`. -/
def execLdFVx (x : Reg) (s : State) : Host.Outcome State Fault Refusal := .next (s.setI (glyphAddr (s.lowNibble x)))

end Sys2Proof.Machine
end

