-- ==== Sys2Proof/Machine/InputOps.lean ====
section
/-! DEFINITION. Keypad input (spec 47_input.md R119 to R122). The wait step (R123) is `waitStep` in Ops.lean. -/

namespace Sys2Proof.Machine

/-- EX9E (R120): skip if key `x[X] & 0x0F` is pressed. -/
def execSkpVx (x : Reg) (s : State) : Host.Outcome State Fault Refusal := .next (s.skipIf (s.key (s.lowNibble x)))

/-- EXA1 (R121): skip if key `x[X] & 0x0F` is not pressed. -/
def execSknpVx (x : Reg) (s : State) : Host.Outcome State Fault Refusal := .next (s.skipIf (!s.key (s.lowNibble x)))

/-- FX0A (R122): `engine <- WaitingForKey(X)`; no key is looked at in this step. -/
def execLdVxK (x : Reg) (s : State) : Host.Outcome State Fault Refusal := .next (s.setEngine (.waitingForKey x))

end Sys2Proof.Machine
end

