-- ==== Sys2Proof/Machine/MemoryBlock.lean ====
section
/-! DEFINITION. Memory block operations (spec 45_memory_block.md R108 to R111): the whole range is checked before the
first byte moves, so a MemoryFault leaves memory and registers unchanged. -/

namespace Sys2Proof.Machine

/-- FX55 with MEM_BLOCK_I_MODE given, its range checked (R109). -/
def storeRegsWith (mode : MemBlockIMode) (x : Reg) (s : State) : State :=
  (s.setMEM (s.MEM.writeBytes s.indexAddr (s.regsUpTo x))).blockAdvance mode x

/-- FX65 with MEM_BLOCK_I_MODE given, its range checked (R110). -/
def loadRegsWith (mode : MemBlockIMode) (x : Reg) (s : State) : State :=
  (s.loadRegs 0 (s.MEM.readBytes s.indexAddr (x.val + 1))).blockAdvance mode x

/-- FX55 (R109): V0..Vx to memory at `I`. -/
def execLdMemVx (x : Reg) (s : State) : Host.Outcome State Fault Refusal :=
  s.accessing s.indexAddr (x.val + 1) (storeRegsWith Params.memBlockIMode x s)

/-- FX65 (R110): V0..Vx from memory at `I`. -/
def execLdVxMem (x : Reg) (s : State) : Host.Outcome State Fault Refusal :=
  s.accessing s.indexAddr (x.val + 1) (loadRegsWith Params.memBlockIMode x s)

/-- FX33 (R111): the three decimal digits of Vx to `I`, `I + 1`, `I + 2`. -/
def execLdBVx (x : Reg) (s : State) : Host.Outcome State Fault Refusal :=
  s.accessing s.indexAddr 3 (s.setMEM (s.MEM.writeBytes s.indexAddr (bcdDigits (s.reg x))))

end Sys2Proof.Machine
end

