-- ==== Sys2Proof/Machine/RandomOps.lean ====
section
/-! DEFINITION. Random (spec 44_random.md R106, R107). -/

namespace Sys2Proof.Machine

/-- CXNN (R106): `x[X] <- r & NN`, where `r` is the byte the host supplied, or a free value (log entry 2). -/
def execRndVxByte (x : Reg) (nn : Byte) (s : State) : Host.Outcome State Fault Refusal :=
  .next (s.drawByte.2.setReg x (s.drawByte.1 &&& nn))

end Sys2Proof.Machine
end

