-- ==== Sys2Proof/Machine/RegisterOps.lean ====
section
/-! DEFINITION. Register operations: set, add immediate, register-register arithmetic, shifts (spec
42_register_ops.md R90 to R102). Operands are read first, `x[X]` is written next, the flag last (R90). -/

namespace Sys2Proof.Machine

/-- 6XNN (R91): `x[X] <- NN`. -/
def execLdVxByte (x : Reg) (nn : Byte) (s : State) : Host.Outcome State Fault Refusal := .next (s.setReg x nn)

/-- 7XNN (R92): `x[X] <- trunc8(x[X] + NN)`, no flag. -/
def execAddVxByte (x : Reg) (nn : Byte) (s : State) : Host.Outcome State Fault Refusal :=
  .next (s.setReg x (addBytes (s.reg x) nn))

/-- 8XY0 (R93): `x[X] <- x[Y]`. -/
def execLdVxVy (x y : Reg) (s : State) : Host.Outcome State Fault Refusal := .next (s.setReg x (s.reg y))

/-- 8XY1 (R94): `x[X] <- x[X] | x[Y]`, no flag. -/
def execOrVxVy (x y : Reg) (s : State) : Host.Outcome State Fault Refusal := .next (s.setReg x (s.reg x ||| s.reg y))

/-- 8XY2 (R95): `x[X] <- x[X] & x[Y]`, no flag. -/
def execAndVxVy (x y : Reg) (s : State) : Host.Outcome State Fault Refusal := .next (s.setReg x (s.reg x &&& s.reg y))

/-- 8XY3 (R96): `x[X] <- x[X] ^ x[Y]`, no flag. -/
def execXorVxVy (x y : Reg) (s : State) : Host.Outcome State Fault Refusal := .next (s.setReg x (s.reg x ^^^ s.reg y))

/-- 8XY4 (R97): the sum modulo 256, VF = carry. -/
def execAddVxVy (x y : Reg) (s : State) : Host.Outcome State Fault Refusal :=
  .next (s.setResultAndFlag x (addBytes (s.reg x) (s.reg y)) (carryFlag (s.reg x) (s.reg y)))

/-- 8XY5 (R98): `Vx - Vy` modulo 256, VF = no borrow. -/
def execSubVxVy (x y : Reg) (s : State) : Host.Outcome State Fault Refusal :=
  .next (s.setResultAndFlag x (subBytes (s.reg x) (s.reg y)) (noBorrowFlag (s.reg x) (s.reg y)))

/-- 8XY7 (R99): `Vy - Vx` modulo 256 into Vx, VF = no borrow. -/
def execSubnVxVy (x y : Reg) (s : State) : Host.Outcome State Fault Refusal :=
  .next (s.setResultAndFlag x (subBytes (s.reg y) (s.reg x)) (noBorrowFlag (s.reg y) (s.reg x)))

/-- 8XY6 with the shifted register given by SHIFT_SOURCE (R100). -/
def shrWith (source : ShiftSource) (x y : Reg) (s : State) : State :=
  s.setResultAndFlag x (shiftRightByte (s.shiftOperand source x y)) (shiftedOutRight (s.shiftOperand source x y))

/-- 8XYE with the shifted register given by SHIFT_SOURCE (R101). -/
def shlWith (source : ShiftSource) (x y : Reg) (s : State) : State :=
  s.setResultAndFlag x (shiftLeftByte (s.shiftOperand source x y)) (shiftedOutLeft (s.shiftOperand source x y))

/-- 8XY6 (R100), SHIFT_SOURCE as this spec takes it. -/
def execShrVxVy (x y : Reg) (s : State) : Host.Outcome State Fault Refusal :=
  .next (shrWith Params.shiftSource x y s)

/-- 8XYE (R101), SHIFT_SOURCE as this spec takes it. -/
def execShlVxVy (x y : Reg) (s : State) : Host.Outcome State Fault Refusal :=
  .next (shlWith Params.shiftSource x y s)

end Sys2Proof.Machine
end

