-- ==== Sys2Proof/Machine/TimerOps.lean ====
section
/-! DEFINITION. Timer instructions (spec 46_timers.md R112 to R114). -/

namespace Sys2Proof.Machine

/-- FX07 (R112): `x[X] <- DT`. -/
def execLdVxDT (x : Reg) (s : State) : Host.Outcome State Fault Refusal := .next (s.setReg x s.DT)

/-- FX15 (R113): `DT <- x[X]`. -/
def execLdDTVx (x : Reg) (s : State) : Host.Outcome State Fault Refusal := .next (s.setDT (s.reg x))

/-- FX18 (R114): `ST <- x[X]`. -/
def execLdSTVx (x : Reg) (s : State) : Host.Outcome State Fault Refusal := .next (s.setST (s.reg x))

end Sys2Proof.Machine
end

