-- ==== Sys2Proof/Machine/Cycle.lean ====
section
/-! DEFINITION. One cycle of the Running state (spec 40_cycle.md R65), and where the host places a word for the next
fetch. -/

namespace Sys2Proof.Machine

/-- One cycle in the Running state: fetch, default advance, decode, dispatch (R65). A fetch error is raised before `pc`
advances, so its fetch_pc is `pc` itself (R66, R69). -/
def cycle (s : State) : Host.Outcome State Fault Refusal :=
  match s.fetch with
  | .error kind => .next (s.enterFaulted kind s.pc)
  | .ok w =>
    match decode w with
    | .instr i => exec i s.advance
    | .unknown w => execUnknown w s.advance

/-- `pc` where a fetch succeeds: `pc` itself below 0xFFF, else the program base (log entry 6). -/
def State.fetchablePc (s : State) : Addr :=
  if s.pc.toNat + 1 < Config.memSize then s.pc else BitVec.ofNat 16 Config.programBase

/-- A word written at an address, high byte first (20_memory.md R36). -/
def State.placeWord (s : State) (a : Addr) (w : Nat) : State :=
  s.setMEM (s.MEM.writeBytes a.toNat [BitVec.ofNat 8 (w / 0x100), BitVec.ofNat 8 w])

end Sys2Proof.Machine
end

