-- ==== Sys2Proof/Machine/Step.lean ====
section
/-! DEFINITION. `step` (spec 40_cycle.md R64), and how the host places an instruction for the next step. -/

namespace Sys2Proof.Machine

/-- `step` dispatches on the engine state (R64). Faulted is absorbing (R70): the step changes nothing, and its result
`Err(e)` is read off the engine (`State.result`, HostOps.lean; log entry 3). -/
def step (s : State) : Host.Outcome State Fault Refusal :=
  match s.engine with
  | .faulted _ => .next s
  | .waitingForKey r => .next (waitStep r s)
  | .running => cycle s

/-- The state with an instruction, numbered as spec/opcode_table.json numbers its bits, placed where `step` fetches
next, high byte first (20_memory.md R36), and the engine Running so that the next step fetches (log entry 6). -/
def State.withFetchWord (s : State) (nbits w : Nat) : State :=
  ((s.placeWord s.fetchablePc (w % 2 ^ nbits)).setPc s.fetchablePc).setEngine .running

end Sys2Proof.Machine
end

