-- ==== Sys2Proof/Machine/HostOps.lean ====
section
/-! DEFINITION. The host's operations (spec 40_cycle.md R63), each one atomic transition (R77), in the
boot order of 70_reset_and_hazards.md R149. -/

namespace Sys2Proof.Machine

/-- The result of `step` (R71). -/
inductive StepResult where
  | ok (engine : Engine)
  | err (e : ErrorRecord)
  deriving DecidableEq, Repr

/-- The result of the step that left this state: `Ok(engine)`, or `Err(e)` in Faulted(e) (R64, R70, R71). -/
def State.result (s : State) : StepResult :=
  match s.engine with
  | .faulted e => .err e
  | .running => .ok .running
  | .waitingForKey r => .ok (.waitingForKey r)

/-- `step(rand)`: the byte `rand` is the operand of this step alone, consumed only by CXNN (R63; 44_random.md R106,
R107). -/
def stepWith (rand : Byte) (s : State) : Host.Outcome State Fault Refusal :=
  match step (s.setRandInput [rand]) with
  | .next t => .next (t.setRandInput s.randInput)
  | .fault f => .fault f
  | .refused r => .refused r

/-- One timer's decrement, floored at 0 (46_timers.md R115). -/
def tickTimer (t : Byte) : Byte := if 0 < t.toNat then BitVec.ofNat 8 (t.toNat - 1) else t

/-- `tick_timers()` (R115), in every engine state (40_cycle.md R73). -/
def State.tickTimers (s : State) : State := (s.setDT (tickTimer s.DT)).setST (tickTimer s.ST)

/-- `load(bytes)` (70_reset_and_hazards.md R148): RomTooLarge above 3584 bytes, else the bytes at 0x200. -/
def State.load (s : State) (bytes : List Byte) : Except LoadError State :=
  if Config.maxRomLen < bytes.length then .error .romTooLarge
  else .ok (s.setMEM (s.MEM.writeBytes Config.programBase bytes))

/-- The tone is on exactly while ST != 0 (46_timers.md R117). -/
def State.toneOn (s : State) : Bool := s.ST != 0

/-- The operations of R63. `set_key` is `State.setKey` (R74). -/
inductive HostOp where
  | load (bytes : List Byte)
  | step (rand : Byte)
  | tickTimers
  | setKey (k : Key) (pressed : Bool)
  | readDisplay
  | readSound
  | readStatus
  deriving DecidableEq, Repr

/-- What an operation answers the host. -/
inductive HostReply where
  | done
  | loadError (e : LoadError)
  | stepped (r : StepResult)
  | display (d : Display)
  | sound (st : Byte)
  | status (e : Engine)
  deriving DecidableEq, Repr

/-- How far the boot order of 70_reset_and_hazards.md R149 has come. -/
inductive BootPhase where
  /-- The machine is created, no `load` has succeeded and no `step` has run. -/
  | created
  /-- One `load` has succeeded and no `step` has run. -/
  | loaded
  /-- A `step` has run. -/
  | stepped
  deriving DecidableEq, Repr

/-- A machine in its host's hands: its state, and how far the boot order has come. The phase is the host's record, not a
piece of the core's state (10_state.md, opening), and no instruction reads it (log entry 10). -/
structure Session where
  machine : State
  phase : BootPhase
  deriving DecidableEq, Repr

/-- A machine just created (70_reset_and_hazards.md R146): boot order, (1). -/
def Session.fresh : Session := ⟨State.reset, .created⟩

/-- The machine's state is replaced, the phase kept. -/
def Session.withMachine (h : Session) (s : State) : Session := { h with machine := s }

/-- `load` within the boot order: once, and before the first `step` (R149). A failed load leaves everything as before, so
that the host may load again (R150); any other further load is refused. -/
def Session.load (h : Session) (bytes : List Byte) : Host.Outcome (Session × HostReply) Fault Refusal :=
  match h.phase with
  | .created =>
    match h.machine.load bytes with
    | .ok t => .next (⟨t, .loaded⟩, .done)
    | .error e => .next (h, .loadError e)
  | .loaded => .refused .loadOutOfOrder
  | .stepped => .refused .loadOutOfOrder

/-- `step(rand)` and its result; from then on the machine has stepped (R149). -/
def Session.step (h : Session) (rand : Byte) : Host.Outcome (Session × HostReply) Fault Refusal :=
  match stepWith rand h.machine with
  | .next t => .next (⟨t, .stepped⟩, .stepped t.result)
  | .fault f => .fault f
  | .refused r => .refused r

/-- One host operation as one transition, with its answer (40_cycle.md R63, R77). The reads change nothing (R75). -/
def hostStep (op : HostOp) (h : Session) : Host.Outcome (Session × HostReply) Fault Refusal :=
  match op with
  | .load bytes => h.load bytes
  | .step rand => h.step rand
  | .tickTimers => .next (h.withMachine h.machine.tickTimers, .done)
  | .setKey k p => .next (h.withMachine (h.machine.setKey k p), .done)
  | .readDisplay => .next (h, .display h.machine.DISP)
  | .readSound => .next (h, .sound h.machine.ST)
  | .readStatus => .next (h, .status h.machine.engine)

/-- Numeric codes of the error kinds (60_exceptions.md R130, D34). -/
def ErrorKind.code : ErrorKind → Nat
  | .memoryFault _ => 1
  | .stackOverflow => 2
  | .stackUnderflow => 3
  | .unknownOpcode _ => 4

/-- Numeric code of the load error (R130, D34). -/
def LoadError.code : LoadError → Nat
  | .romTooLarge => 5

end Sys2Proof.Machine
end

