-- ==== Sys2Proof/Safety.lean ====
section
/-! DEFINITION. The terms claims are stated in: the invariant of every run, what the host can bring about, and the
ways a run ends (spec 95_test_vectors.md part 4; 40_cycle.md R77, R79). -/

namespace Sys2Proof.Machine

/-- A legal error record: an address that is no memory and at most 0xFFFF + 15 (10_state.md R34), a word that decodes
to Unknown, an address `pc` can hold in a run (R22). -/
def ErrorRecord.Legal (e : ErrorRecord) : Prop :=
  e.fetchPc.toNat ≤ 0x10FE ∧
  match e.kind with
  | .memoryFault a => 4096 ≤ a ∧ a ≤ 0xFFFF + 15
  | .unknownOpcode w => decode w = .unknown w
  | .stackOverflow => True
  | .stackUnderflow => True

/-- What holds in every state of every run: SP is a depth 0..16 (R25, R83), `pc` is at most 0x10FE (R22), every return
address is the address after a call in memory, memory keeps its canonical form, and a recorded error is legal. -/
structure State.Inv (s : State) : Prop where
  depth : s.SP.toNat ≤ 16
  pcBound : s.pc.toNat ≤ 0x10FE
  returns : ∀ k : Fin 16, (s.slot k).toNat ≤ 0x1000
  memory : s.MEM.wf = true
  error : ∀ e, s.engine = .faulted e → e.Legal

/-- What the host can bring about from a machine just created, by its operations in any order that keeps the boot order
(40_cycle.md R77; 70_reset_and_hazards.md R149): `hostStep` refuses a load that is not the first or comes after a step.
A step may also leave its random byte free (log entry 2). -/
inductive Reachable : Session → Prop where
  | created : Reachable Session.fresh
  | operated {h g : Session} {op : HostOp} {a : HostReply} :
      Reachable h → hostStep op h = .next (g, a) → Reachable g
  | steppedFree {h : Session} {t : State} : Reachable h → step h.machine = .next t → Reachable ⟨t, .stepped⟩

/-- A run has ended faulted (R79). -/
def State.endedFaulted (s : State) : Prop := ∃ e, s.engine = .faulted e

/-- A run is parked (R79): Running at a 1NNN whose target is its own address. -/
def State.parked (s : State) : Prop :=
  s.engine = .running ∧ s.pc.toNat ≤ 0xFFF ∧ s.fetch = .ok (0x1000 ||| s.pc)

/-- A run waits for a key (R79). -/
def State.waiting (s : State) : Prop := ∃ r, s.engine = .waitingForKey r

/-- A run has ended (R79). -/
def State.ended (s : State) : Prop := s.endedFaulted ∨ s.parked ∨ s.waiting

end Sys2Proof.Machine
end

