-- ==== Sys2Proof/Certificates/Slice0/Obligations.lean ====
section
/-! DEFINITION. The statements for the provers, from the numbered rules of spec/. A frame is said by an equation such as
`t = { s with V := t.V }`: every field but the named ones is unchanged, memory and with it every byte read included. -/

open Sys2Proof Sys2Proof.Machine

/-! ### Encoding -/

/-- Words written out bit by bit from the encodings of the rules decode to their instructions, and words off the opcode
map to Unknown (vectors V-CY6 to V-CY11 of 95_test_vectors.md). -/
def Obligations.WordsDecodeAsWritten : Prop :=
  decode 0b0000000011100000 = .instr .cls ∧
  decode 0b0000000011101110 = .instr .ret ∧
  decode 0b0001001000110100 = .instr (.jpAddr 0x234) ∧
  decode 0b0011001100010000 = .instr (.seVxByte 3 0x10) ∧
  decode 0b1000000100100111 = .instr (.subnVxVy 1 2) ∧
  decode 0b1010001000101010 = .instr (.ldIAddr 0x22A) ∧
  decode 0b1100001100001111 = .instr (.rndVxByte 3 0x0F) ∧
  decode 0b1101000000010101 = .instr (.drwVxVyNibble 0 1 5) ∧
  decode 0b1110000110011110 = .instr (.skpVx 1) ∧
  decode 0b1111001100010101 = .instr (.ldDTVx 3) ∧
  decode 0b1111001001010101 = .instr (.ldMemVx 2) ∧
  decode 0x0000 = .unknown 0x0000 ∧
  decode 0x5121 = .unknown 0x5121 ∧
  decode 0x8008 = .unknown 0x8008 ∧
  decode 0xE000 = .unknown 0xE000 ∧
  decode 0xF000 = .unknown 0xF000 ∧
  decode 0x0123 = .unknown 0x0123

/-- Decode and encode agree: every well-formed instruction, with every operand at every value its field admits, is what
its word decodes to (30_encoding.md R53, R54, R56). -/
def Obligations.DecodeOfEncodeIsTheInstruction : Prop :=
  ∀ i : Instr, i.wellFormed = true → decode (encode i) = .instr i

/-- Where a word decodes to an instruction, the instruction is well formed and the word is its only encoding (R60: every
bit is an operand or fixed by the selector). -/
def Obligations.EncodeOfDecodeIsTheWord : Prop :=
  ∀ (w : Word) (i : Instr), decode w = .instr i → i.wellFormed = true ∧ encode i = w

/-- The decoder against the rows of the opcode map: at most one row matches a word, a word that matches a row decodes to
an instruction of that row, and a word that matches none decodes to `Unknown` of itself (R55 to R58). -/
def Obligations.DecoderFollowsTheOpcodeMap : Prop :=
  ∀ w : Word,
    (∀ p ∈ opcodeRows, ∀ q ∈ opcodeRows, p.admits w = true → q.admits w = true → p = q) ∧
    (∀ p ∈ opcodeRows, p.admits w = true → ∃ i, decode w = .instr i ∧ i.row = p) ∧
    ((∀ p ∈ opcodeRows, p.admits w = false) → decode w = .unknown w)

/-! ### The cycle and the engine states -/

/-- A step runs the decoded instruction: Running, with the two bytes at `pc` decoding to `i`, `step` is `exec i` after
the default advance (40_cycle.md R65). -/
def Obligations.StepRunsTheDecodedInstruction : Prop :=
  ∀ (s : State) (i : Instr), s.engine = .running → s.pc.toNat + 1 < 4096 →
    decode (bigEndian (s.MEM.read s.pc.toNat) (s.MEM.read (s.pc.toNat + 1))) = .instr i →
    i.wellFormed = true ∧ step s = exec i { s with pc := s.pc + 2 }

/-- One cycle in the Running state, whole: the fetch error of the high byte, the fetch error of the low byte, an Unknown
word, an instruction (R65; the recorded addresses as R66, R133 and D30 give them). -/
def Obligations.CycleFetchesAdvancesDecodesExecutes : Prop :=
  ∀ s : State, s.engine = .running →
    (4096 ≤ s.pc.toNat → step s = .next { s with engine := .faulted ⟨.memoryFault s.pc.toNat, s.pc⟩ }) ∧
    (s.pc.toNat = 4095 → step s = .next { s with engine := .faulted ⟨.memoryFault 4096, s.pc⟩ }) ∧
    (s.pc.toNat + 1 < 4096 →
      ∀ w : Word, w.toNat = 256 * (s.MEM.read s.pc.toNat).toNat + (s.MEM.read (s.pc.toNat + 1)).toNat →
        (∀ i, decode w = .instr i → step s = exec i { s with pc := s.pc + 2 }) ∧
        (∀ u, decode w = .unknown u →
          u = w ∧ step s = .next { s with pc := s.pc + 2, engine := .faulted ⟨.unknownOpcode w, s.pc⟩ }))

/-- In Faulted(e) a step changes nothing and its result is Err(e) (40_cycle.md R70; the spec's decision D18, log
entry 3). -/
def Obligations.FaultedIsAbsorbing : Prop :=
  ∀ (s : State) (e : ErrorRecord), s.engine = .faulted e →
    step s = .next s ∧ s.result = .err e ∧
    ∀ rand phase, hostStep (.step rand) ⟨s, phase⟩ = .next (⟨s, .stepped⟩, .stepped (.err e))

/-- The wait step: with no key pressed nothing changes; with keys pressed the least one goes to the register and the
engine runs again, and nothing else changes (47_input.md R123; "the least" is the spec's decision D16). -/
def Obligations.WaitStepTakesTheLeastPressedKey : Prop :=
  ∀ (s : State) (r : Reg), s.engine = .waitingForKey r →
    ((∀ k : Key, s.key k = false) → step s = .next s) ∧
    ∀ k : Key, s.key k = true → (∀ j : Key, j < k → s.key j = false) →
      ∃ t, step s = .next t ∧ t = { s with V := t.V, engine := .running } ∧ (t.reg r).toNat = k.val ∧
        ∀ q : Reg, q ≠ r → t.reg q = s.reg q

/-- The engine state transitions, and no others (40_cycle.md R72). The last clause takes in `load`, which R72 does not list:
where it is admitted (70_reset_and_hazards.md R149; log entry 10) it leaves every register as it was (R148). -/
def Obligations.EngineTransitionsAreTheOnlyOnes : Prop :=
  (∀ s t : State, s.engine = .running → step s = .next t →
    t.engine = .running ∨ (∃ e, t.engine = .faulted e) ∨
      ∃ x, t.engine = .waitingForKey x ∧
        decode (bigEndian (s.MEM.read s.pc.toNat) (s.MEM.read (s.pc.toNat + 1))) = .instr (.ldVxK x)) ∧
  (∀ (s : State) (x : Reg), s.engine = .running → s.pc.toNat + 1 < 4096 →
    decode (bigEndian (s.MEM.read s.pc.toNat) (s.MEM.read (s.pc.toNat + 1))) = .instr (.ldVxK x) →
    ∃ t, step s = .next t ∧ t.engine = .waitingForKey x) ∧
  (∀ (s : State) (r : Reg), s.engine = .waitingForKey r →
    ∃ t, step s = .next t ∧ t.engine = if ∃ k : Key, s.key k = true then .running else .waitingForKey r) ∧
  (∀ (s : State) (e : ErrorRecord), s.engine = .faulted e → ∃ t, step s = .next t ∧ t.engine = .faulted e) ∧
  (∀ (h g : Session) (op : HostOp) (a : HostReply), hostStep op h = .next (g, a) → (∀ rand, op ≠ .step rand) →
    g.machine.engine = h.machine.engine)

/-- Errors are precise: a step that raises an error changes the engine, and `pc` to fetch_pc + 2 unless the fetch itself
failed, and nothing else; fetch_pc is the address fetched from (40_cycle.md R69, 60_exceptions.md R137; the spec's
decisions D17, D30). -/
def Obligations.ErrorsArePrecise : Prop :=
  ∀ (s t : State) (e : ErrorRecord), s.engine = .running → step s = .next t → t.engine = .faulted e →
    e.fetchPc = s.pc ∧
    ((4095 ≤ s.pc.toNat ∧ t = { s with engine := .faulted e }) ∨
      (s.pc.toNat < 4095 ∧ t = { s with pc := s.pc + 2, engine := .faulted e }))

/-- Which instruction raises which error, and with what address: an execution error of a running machine comes from one
of the listed causes (60_exceptions.md R131, R132), and from a decoded instruction never as UnknownOpcode (R133). -/
def Obligations.ExecutionErrorsHaveTheirListedCauses : Prop :=
  ∀ (i : Instr) (s t : State) (e : ErrorRecord), s.engine = .running → exec i s = .next t → t.engine = .faulted e →
    match e.kind with
    | .memoryFault a =>
      4096 ≤ a ∧ s.I.toNat ≤ a ∧ (∀ b, s.I.toNat ≤ b → 4096 ≤ b → a ≤ b) ∧
      ((∃ x y n, i = .drwVxVyNibble x y n ∧ 0 < n ∧ a ≤ s.I.toNat + n - 1) ∨
        (∃ x, i = .ldBVx x ∧ a ≤ s.I.toNat + 2) ∨
        (∃ x, i = .ldMemVx x ∧ a ≤ s.I.toNat + x.val) ∨
        (∃ x, i = .ldVxMem x ∧ a ≤ s.I.toNat + x.val))
    | .stackOverflow => (∃ addr, i = .callAddr addr) ∧ s.SP = 16
    | .stackUnderflow => i = .ret ∧ s.SP = 0
    | .unknownOpcode _ => False

/-- A parked machine stays as it is: Running at a jump to its own address, a step changes nothing (40_cycle.md R79, the
clause the spec derives from R65 and R80; the notion is its decision D31). -/
def Obligations.ParkedStaysParked : Prop := ∀ s : State, s.parked → step s = .next s

/-- Self-modifying code: a word stored by FX55 is what the next fetch at its address reads (20_memory.md R50, which the
spec derives from R47). -/
def Obligations.NextFetchSeesTheStore : Prop :=
  ∀ (s : State) (x k l : Reg) (p : Addr), s.I.toNat + x.val < 4096 → l.val = k.val + 1 → l.val ≤ x.val →
    p.toNat = s.I.toNat + k.val →
    ∃ t, exec (.ldMemVx x) s = .next t ∧
      ({ t with pc := p } : State).fetch = .ok (bigEndian (s.reg k) (s.reg l))

/-! ### The invariant -/

/-- The invariant holds right after creation. -/
def Obligations.InvariantHoldsAtReset : Prop := State.reset.Inv

/-- Every step keeps the invariant, from every state that has it: SP stays a depth 0..16, `pc` at most 0x10FE, every
return address at most 0x1000, memory canonical, every recorded error legal. -/
def Obligations.StepKeepsTheInvariant : Prop := ∀ s t : State, s.Inv → step s = .next t → t.Inv

/-- The invariant holds in every state the host can bring about from creation, in any interleaving of its operations that
keeps the boot order (95_test_vectors.md part 4, items 1 and 2; 40_cycle.md R77; 70_reset_and_hazards.md R149). -/
def Obligations.EveryReachableStateHasTheInvariant : Prop := ∀ h : Session, Reachable h → h.machine.Inv

/-- From every state with the invariant, every host operation answers a next state, but for a load out of the boot order,
which `BootOrderIsKept` states is refused: the model's fault is of states no run reaches (log entry 4), and which loads are
admitted is log entry 10. -/
def Obligations.EveryHostOperationAnswersANextState : Prop :=
  ∀ (h : Session) (op : HostOp), h.machine.Inv → (∀ bytes, op = .load bytes → h.phase = .created) →
    ∃ g a, hostStep op h = .next (g, a)

/-! ### Control flow -/

/-- 1NNN (41_control_flow.md R80): the encoding, and `pc <- NNN` with nothing else changed. -/
def Obligations.JumpSetsPcToTheAddress : Prop :=
  (∀ addr : Addr, addr.toNat < 4096 → decode (BitVec.ofNat 16 (0x1000 + addr.toNat)) = .instr (.jpAddr addr)) ∧
  ∀ (addr : Addr) (s : State), exec (.jpAddr addr) s = .next { s with pc := addr }

/-- 2NNN (R81): below 16 stored addresses it pushes `pc` (the address after the call) and jumps; at 16 it raises
StackOverflow and writes nothing. The address an error records is stated by `ErrorsArePrecise`, here and below. -/
def Obligations.CallPushesTheReturnAddress : Prop :=
  (∀ addr : Addr, addr.toNat < 4096 → decode (BitVec.ofNat 16 (0x2000 + addr.toNat)) = .instr (.callAddr addr)) ∧
  (∀ (addr : Addr) (s : State), s.SP.toNat < 16 →
    ∃ t, exec (.callAddr addr) s = .next t ∧ t = { s with STACK := t.STACK, SP := s.SP + 1, pc := addr } ∧
      ∀ k : Fin 16, t.slot k = if k.val = s.SP.toNat then s.pc else s.slot k) ∧
  ∀ (addr : Addr) (s : State), s.SP.toNat = 16 →
    ∃ a, exec (.callAddr addr) s = .next { s with engine := .faulted ⟨.stackOverflow, a⟩ }

/-- 00EE (R82): with an address stored it pops it into `pc`, and the slot keeps its value; with none it raises
StackUnderflow and writes nothing. -/
def Obligations.ReturnPopsThePc : Prop :=
  decode 0x00EE = .instr .ret ∧
  (∀ (s : State) (k : Fin 16), s.SP.toNat = k.val + 1 →
    exec .ret s = .next { s with SP := s.SP - 1, pc := s.slot k }) ∧
  ∀ s : State, s.SP.toNat = 0 → ∃ a, exec .ret s = .next { s with engine := .faulted ⟨.stackUnderflow, a⟩ }

/-- The model's own stop (log entry 4, DESIGN CHOICE): with SP above 16, which R25 rules out, a call and a return name no
slot and stop with the fault. -/
def Obligations.CallAndReturnStopAboveDepthSixteen : Prop :=
  ∀ (addr : Addr) (s : State), 16 < s.SP.toNat →
    exec (.callAddr addr) s = .fault .stackSlotAbsent ∧ exec .ret s = .fault .stackSlotAbsent

/-- The call/return round trip (R82: "restores PC to P+2"): after a call, a return executed anywhere brings `pc` back to
the address after the call and the depth to its value before. -/
def Obligations.CallThenReturnComesBack : Prop :=
  ∀ (addr p : Addr) (s : State), s.SP.toNat < 16 →
    ∃ t u, exec (.callAddr addr) s = .next t ∧ exec .ret { t with pc := p } = .next u ∧
      u = { s with STACK := u.STACK } ∧ ∀ k : Fin 16, k.val ≠ s.SP.toNat → u.slot k = s.slot k

/-- The three instructions the spec takes from general knowledge (its decisions D9, D10 and G7): BNNN jumps to NNN + V0,
8XY0 copies a register, 9XY0 skips when two registers differ. -/
def Obligations.JumpOffsetCopyAndUnequalSkip : Prop :=
  (∀ addr : Addr, addr.toNat < 4096 → decode (BitVec.ofNat 16 (0xB000 + addr.toNat)) = .instr (.jpV0Addr addr)) ∧
  (∀ x y : Reg, decode (BitVec.ofNat 16 (0x8000 + 0x100 * x.val + 0x10 * y.val)) = .instr (.ldVxVy x y)) ∧
  (∀ x y : Reg, decode (BitVec.ofNat 16 (0x9000 + 0x100 * x.val + 0x10 * y.val)) = .instr (.sneVxVy x y)) ∧
  (∀ (addr : Addr) (s : State), addr.toNat < 4096 →
    ∃ t, exec (.jpV0Addr addr) s = .next t ∧ t = { s with pc := t.pc } ∧
      t.pc.toNat = addr.toNat + (s.reg 0).toNat) ∧
  (∀ (x y : Reg) (s : State),
    ∃ t, exec (.ldVxVy x y) s = .next t ∧ t = { s with V := t.V } ∧ t.reg x = s.reg y ∧
      ∀ r : Reg, r ≠ x → t.reg r = s.reg r) ∧
  ∀ (x y : Reg) (s : State),
    exec (.sneVxVy x y) s = .next { s with pc := if s.reg x = s.reg y then s.pc else s.pc + 2 }

/-- 3XNN and 4XNN (R86, R87): a taken skip adds 2 to `pc` once more (R85), and nothing else changes in either case. -/
def Obligations.ImmediateSkips : Prop :=
  (∀ (x : Reg) (nn : Byte),
    decode (BitVec.ofNat 16 (0x3000 + 0x100 * x.val + nn.toNat)) = .instr (.seVxByte x nn) ∧
    decode (BitVec.ofNat 16 (0x4000 + 0x100 * x.val + nn.toNat)) = .instr (.sneVxByte x nn)) ∧
  ∀ (x : Reg) (nn : Byte) (s : State),
    exec (.seVxByte x nn) s = .next { s with pc := if s.reg x = nn then s.pc + 2 else s.pc } ∧
    exec (.sneVxByte x nn) s = .next { s with pc := if s.reg x = nn then s.pc else s.pc + 2 }

/-- 5XY0 (R88). -/
def Obligations.EqualRegistersSkip : Prop :=
  (∀ x y : Reg, decode (BitVec.ofNat 16 (0x5000 + 0x100 * x.val + 0x10 * y.val)) = .instr (.seVxVy x y)) ∧
  (∀ (x y : Reg) (n : Nat), 0 < n → n < 16 → ∀ w : Word, w.toNat = 0x5000 + 0x100 * x.val + 0x10 * y.val + n →
    decode w = .unknown w) ∧
  ∀ (x y : Reg) (s : State),
    exec (.seVxVy x y) s = .next { s with pc := if s.reg x = s.reg y then s.pc + 2 else s.pc }

/-- EX9E and EXA1 (47_input.md R120, R121): the key is named by the low nibble of Vx (the spec's decision D15). -/
def Obligations.KeySkips : Prop :=
  (∀ x : Reg, decode (BitVec.ofNat 16 (0xE09E + 0x100 * x.val)) = .instr (.skpVx x) ∧
    decode (BitVec.ofNat 16 (0xE0A1 + 0x100 * x.val)) = .instr (.sknpVx x)) ∧
  ∀ (x : Reg) (s : State) (k : Key), k.val = (s.reg x).toNat % 16 →
    exec (.skpVx x) s = .next { s with pc := if s.key k = true then s.pc + 2 else s.pc } ∧
    exec (.sknpVx x) s = .next { s with pc := if s.key k = true then s.pc else s.pc + 2 }

/-! ### Register operations -/

/-- 6XNN and 7XNN (42_register_ops.md R91, R92): the byte is stored exactly, or added modulo 256 with no flag. -/
def Obligations.SetAndAddImmediate : Prop :=
  (∀ (x : Reg) (nn : Byte),
    decode (BitVec.ofNat 16 (0x6000 + 0x100 * x.val + nn.toNat)) = .instr (.ldVxByte x nn) ∧
    decode (BitVec.ofNat 16 (0x7000 + 0x100 * x.val + nn.toNat)) = .instr (.addVxByte x nn)) ∧
  ∀ (x : Reg) (nn : Byte) (s : State),
    (∃ t, exec (.ldVxByte x nn) s = .next t ∧ t = { s with V := t.V } ∧ t.reg x = nn ∧
      ∀ r : Reg, r ≠ x → t.reg r = s.reg r) ∧
    ∃ t, exec (.addVxByte x nn) s = .next t ∧ t = { s with V := t.V } ∧
      (t.reg x).toNat = ((s.reg x).toNat + nn.toNat) % 256 ∧ ∀ r : Reg, r ≠ x → t.reg r = s.reg r

/-- 8XY1, 8XY2, 8XY3 (R94, R95, R96): bit by bit, with no flag. -/
def Obligations.BitwiseOperationsLeaveVFAlone : Prop :=
  (∀ x y : Reg,
    decode (BitVec.ofNat 16 (0x8001 + 0x100 * x.val + 0x10 * y.val)) = .instr (.orVxVy x y) ∧
    decode (BitVec.ofNat 16 (0x8002 + 0x100 * x.val + 0x10 * y.val)) = .instr (.andVxVy x y) ∧
    decode (BitVec.ofNat 16 (0x8003 + 0x100 * x.val + 0x10 * y.val)) = .instr (.xorVxVy x y)) ∧
  ∀ (x y : Reg) (s : State),
    (∃ t, exec (.orVxVy x y) s = .next t ∧ t = { s with V := t.V } ∧
      (∀ b, (t.reg x).getLsbD b = ((s.reg x).getLsbD b || (s.reg y).getLsbD b)) ∧
      ∀ r : Reg, r ≠ x → t.reg r = s.reg r) ∧
    (∃ t, exec (.andVxVy x y) s = .next t ∧ t = { s with V := t.V } ∧
      (∀ b, (t.reg x).getLsbD b = ((s.reg x).getLsbD b && (s.reg y).getLsbD b)) ∧
      ∀ r : Reg, r ≠ x → t.reg r = s.reg r) ∧
    ∃ t, exec (.xorVxVy x y) s = .next t ∧ t = { s with V := t.V } ∧
      (∀ b, (t.reg x).getLsbD b = ((s.reg x).getLsbD b ^^ (s.reg y).getLsbD b)) ∧
      ∀ r : Reg, r ≠ x → t.reg r = s.reg r

/-- 8XY4 (R97): the sum modulo 256, VF the carry, written last. -/
def Obligations.AddSetsTheCarry : Prop :=
  (∀ x y : Reg, decode (BitVec.ofNat 16 (0x8004 + 0x100 * x.val + 0x10 * y.val)) = .instr (.addVxVy x y)) ∧
  ∀ (x y : Reg) (s : State),
    ∃ t, exec (.addVxVy x y) s = .next t ∧ t = { s with V := t.V } ∧
      (t.reg VF = if (s.reg x).toNat + (s.reg y).toNat > 255 then 1 else 0) ∧
      (x ≠ VF → (t.reg x).toNat = ((s.reg x).toNat + (s.reg y).toNat) % 256) ∧
      ∀ r : Reg, r ≠ x → r ≠ VF → t.reg r = s.reg r

/-- 8XY5 (R98): `Vx - Vy` modulo 256, VF = 1 when no borrow, written last. -/
def Obligations.SubtractSetsNoBorrow : Prop :=
  (∀ x y : Reg, decode (BitVec.ofNat 16 (0x8005 + 0x100 * x.val + 0x10 * y.val)) = .instr (.subVxVy x y)) ∧
  ∀ (x y : Reg) (s : State),
    ∃ t, exec (.subVxVy x y) s = .next t ∧ t = { s with V := t.V } ∧
      (t.reg VF = if (s.reg x).toNat ≥ (s.reg y).toNat then 1 else 0) ∧
      (x ≠ VF → ((t.reg x).toNat : Int) = ((s.reg x).toNat - (s.reg y).toNat + 256 : Int) % 256) ∧
      ∀ r : Reg, r ≠ x → r ≠ VF → t.reg r = s.reg r

/-- 8XY7 (R99): `Vy - Vx` modulo 256 into Vx, VF = 1 when no borrow, written last. -/
def Obligations.ReverseSubtractSetsNoBorrow : Prop :=
  (∀ x y : Reg, decode (BitVec.ofNat 16 (0x8007 + 0x100 * x.val + 0x10 * y.val)) = .instr (.subnVxVy x y)) ∧
  ∀ (x y : Reg) (s : State),
    ∃ t, exec (.subnVxVy x y) s = .next t ∧ t = { s with V := t.V } ∧
      (t.reg VF = if (s.reg y).toNat ≥ (s.reg x).toNat then 1 else 0) ∧
      (x ≠ VF → ((t.reg x).toNat : Int) = ((s.reg y).toNat - (s.reg x).toNat + 256 : Int) % 256) ∧
      ∀ r : Reg, r ≠ x → r ≠ VF → t.reg r = s.reg r

/-- 8XY6 (R100), for both values of SHIFT_SOURCE: the shifted value halved, VF its least significant bit, written last.
`exec` takes the value Vx, the spec's decision D12 and the model's choice of log entry 1. -/
def Obligations.ShiftRightSetsTheBitShiftedOut : Prop :=
  (∀ x y : Reg, decode (BitVec.ofNat 16 (0x8006 + 0x100 * x.val + 0x10 * y.val)) = .instr (.shrVxVy x y)) ∧
  Params.shiftSource = .vx ∧
  (∀ (x y : Reg) (s : State), exec (.shrVxVy x y) s = .next (shrWith Params.shiftSource x y s)) ∧
  ∀ (source : ShiftSource) (x y : Reg) (s : State) (v : Nat),
    v = (if source = .vx then s.reg x else s.reg y).toNat →
    shrWith source x y s = { s with V := (shrWith source x y s).V } ∧
    ((shrWith source x y s).reg VF).toNat = v % 2 ∧
    (x ≠ VF → ((shrWith source x y s).reg x).toNat = v / 2) ∧
    ∀ r : Reg, r ≠ x → r ≠ VF → (shrWith source x y s).reg r = s.reg r

/-- 8XYE (R101), for both values of SHIFT_SOURCE: the shifted value doubled modulo 256, VF its most significant bit,
written last. `exec` takes the value Vx, the spec's decision D12 and the model's choice of log entry 1. -/
def Obligations.ShiftLeftSetsTheBitShiftedOut : Prop :=
  (∀ x y : Reg, decode (BitVec.ofNat 16 (0x800E + 0x100 * x.val + 0x10 * y.val)) = .instr (.shlVxVy x y)) ∧
  Params.shiftSource = .vx ∧
  (∀ (x y : Reg) (s : State), exec (.shlVxVy x y) s = .next (shlWith Params.shiftSource x y s)) ∧
  ∀ (source : ShiftSource) (x y : Reg) (s : State) (v : Nat),
    v = (if source = .vx then s.reg x else s.reg y).toNat →
    shlWith source x y s = { s with V := (shlWith source x y s).V } ∧
    ((shlWith source x y s).reg VF).toNat = v / 128 ∧
    (x ≠ VF → ((shlWith source x y s).reg x).toNat = 2 * v % 256) ∧
    ∀ r : Reg, r ≠ x → r ≠ VF → (shlWith source x y s).reg r = s.reg r

/-! ### Index register -/

/-- ANNN (43_index.md R103). -/
def Obligations.SetIndexRegister : Prop :=
  (∀ addr : Addr, addr.toNat < 4096 → decode (BitVec.ofNat 16 (0xA000 + addr.toNat)) = .instr (.ldIAddr addr)) ∧
  ∀ (addr : Addr) (s : State), exec (.ldIAddr addr) s = .next { s with I := addr }

/-- FX1E (R104), for both values of I_ADD_SETS_VF: the sum modulo 65536, VF written only where the parameter says so.
`exec` takes the value false, the spec's decision D13 and the model's choice of log entry 1. -/
def Obligations.AddToIndexRegister : Prop :=
  (∀ x : Reg, decode (BitVec.ofNat 16 (0xF01E + 0x100 * x.val)) = .instr (.addIVx x)) ∧
  Params.iAddSetsVF = false ∧
  (∀ (x : Reg) (s : State), exec (.addIVx x) s = .next (addIWith Params.iAddSetsVF x s)) ∧
  ∀ (x : Reg) (s : State),
    (∃ t, addIWith false x s = t ∧ t = { s with I := t.I } ∧
      t.I.toNat = (s.I.toNat + (s.reg x).toNat) % 65536) ∧
    ∃ t, addIWith true x s = t ∧ t = { s with I := t.I, V := t.V } ∧
      t.I.toNat = (s.I.toNat + (s.reg x).toNat) % 65536 ∧
      (t.reg VF = if s.I.toNat + (s.reg x).toNat > 0x0FFF then 1 else 0) ∧
      ∀ r : Reg, r ≠ VF → t.reg r = s.reg r

/-- FX29 (R105): `I` at the glyph of the low nibble of Vx, inside the reserved region; no memory is accessed and nothing
else changes. -/
def Obligations.IndexPointsAtTheGlyph : Prop :=
  (∀ x : Reg, decode (BitVec.ofNat 16 (0xF029 + 0x100 * x.val)) = .instr (.ldFVx x)) ∧
  Params.fontBase = 0x050 ∧
  ∀ (x : Reg) (s : State),
    ∃ t, exec (.ldFVx x) s = .next t ∧ t = { s with I := t.I } ∧
      t.I.toNat = Params.fontBase + 5 * ((s.reg x).toNat % 16) ∧ t.I.toNat + 5 ≤ 0x200

/-! ### Random -/

/-- CXNN as `exec` runs it: the next byte of the host's source where one is at hand, else a free value, of which nothing
is known (log entry 2, the model's form of the spec's open parameter RANDOM, D23). -/
def Obligations.RandomConsumesOneByte : Prop :=
  ∀ (x : Reg) (nn : Byte) (s : State),
    (∀ (b : Byte) (bs : List Byte), s.randInput = b :: bs →
      ∃ t, exec (.rndVxByte x nn) s = .next t ∧ t = { s with V := t.V, randInput := bs } ∧
        t.reg x = b &&& nn ∧ ∀ r : Reg, r ≠ x → t.reg r = s.reg r) ∧
    (s.randInput = [] →
      ∃ t b, exec (.rndVxByte x nn) s = .next t ∧ t = { s with V := t.V, draws := s.draws + 1 } ∧
        b = Config.randomByte s.draws ∧ t.reg x = b &&& nn ∧ ∀ r : Reg, r ≠ x → t.reg r = s.reg r)

/-- CXNN in a `step(rand)` (44_random.md R106): Vx is the byte the host supplied to this step, masked by NN; `pc` advances
and nothing else changes. -/
def Obligations.RandomByteIsTheStepsOperand : Prop :=
  (∀ (x : Reg) (nn : Byte), decode (BitVec.ofNat 16 (0xC000 + 0x100 * x.val + nn.toNat)) = .instr (.rndVxByte x nn)) ∧
  ∀ (rand : Byte) (x : Reg) (nn : Byte) (s : State), s.engine = .running → s.pc.toNat + 1 < 4096 →
    decode (bigEndian (s.MEM.read s.pc.toNat) (s.MEM.read (s.pc.toNat + 1))) = .instr (.rndVxByte x nn) →
    ∃ t, stepWith rand s = .next t ∧ t = { s with V := t.V, pc := s.pc + 2 } ∧ t.reg x = rand &&& nn ∧
      ∀ r : Reg, r ≠ x → t.reg r = s.reg r

/-! ### Memory block operations -/

/-- FX55 (45_memory_block.md R109): V0..Vx go to memory from `I` on, every other byte reads as before, `I` advances only
with MEM_BLOCK_I_MODE = advance; a range that leaves memory raises MemoryFault at its lowest address outside, and then
nothing is written. The parameter is `unchanged`, the spec's decision D14 and the model's choice of log entry 1. -/
def Obligations.StoreRegistersToMemory : Prop :=
  (∀ x : Reg, decode (BitVec.ofNat 16 (0xF055 + 0x100 * x.val)) = .instr (.ldMemVx x)) ∧
  Params.memBlockIMode = .unchanged ∧
  (∀ (x : Reg) (s : State), s.indexAddr + x.val < 4096 →
    ∃ t, exec (.ldMemVx x) s = .next t ∧ t = { s with MEM := t.MEM, I := t.I } ∧
      (t.I = if Params.memBlockIMode = .advance then BitVec.ofNat 16 (s.I.toNat + x.val + 1) else s.I) ∧
      (∀ k : Reg, k ≤ x → t.MEM.read (s.indexAddr + k.val) = s.reg k) ∧
      ∀ a, (a < s.indexAddr ∨ s.indexAddr + x.val < a) → t.MEM.read a = s.MEM.read a) ∧
  ∀ (x : Reg) (s : State), 4096 ≤ s.indexAddr + x.val →
    ∃ a, exec (.ldMemVx x) s = .next { s with engine := .faulted ⟨.memoryFault (max s.indexAddr 4096), a⟩ }

/-- FX65 (R110): V0..Vx come from memory at `I`, the other registers and all of memory unchanged; faults as FX55. The
parameter is `unchanged`, the spec's decision D14 and the model's choice of log entry 1. -/
def Obligations.LoadRegistersFromMemory : Prop :=
  (∀ x : Reg, decode (BitVec.ofNat 16 (0xF065 + 0x100 * x.val)) = .instr (.ldVxMem x)) ∧
  Params.memBlockIMode = .unchanged ∧
  (∀ (x : Reg) (s : State), s.indexAddr + x.val < 4096 →
    ∃ t, exec (.ldVxMem x) s = .next t ∧ t = { s with V := t.V, I := t.I } ∧
      (t.I = if Params.memBlockIMode = .advance then BitVec.ofNat 16 (s.I.toNat + x.val + 1) else s.I) ∧
      ∀ k : Reg, t.reg k = if k ≤ x then s.MEM.read (s.indexAddr + k.val) else s.reg k) ∧
  ∀ (x : Reg) (s : State), 4096 ≤ s.indexAddr + x.val →
    ∃ a, exec (.ldVxMem x) s = .next { s with engine := .faulted ⟨.memoryFault (max s.indexAddr 4096), a⟩ }

/-- FX33 (R111): the three decimal digits of Vx at `I`, `I + 1`, `I + 2`, each 0..9, every other byte as before; a range
that leaves memory raises MemoryFault at its lowest address outside, and then nothing is written. -/
def Obligations.StoreDecimalDigits : Prop :=
  (∀ x : Reg, decode (BitVec.ofNat 16 (0xF033 + 0x100 * x.val)) = .instr (.ldBVx x)) ∧
  (∀ (x : Reg) (s : State), s.indexAddr + 2 < 4096 →
    ∃ t, exec (.ldBVx x) s = .next t ∧ t = { s with MEM := t.MEM } ∧
      100 * (t.MEM.read s.indexAddr).toNat + 10 * (t.MEM.read (s.indexAddr + 1)).toNat +
        (t.MEM.read (s.indexAddr + 2)).toNat = (s.reg x).toNat ∧
      (t.MEM.read s.indexAddr).toNat ≤ 2 ∧ (t.MEM.read (s.indexAddr + 1)).toNat ≤ 9 ∧
      (t.MEM.read (s.indexAddr + 2)).toNat ≤ 9 ∧
      ∀ a, (a < s.indexAddr ∨ s.indexAddr + 2 < a) → t.MEM.read a = s.MEM.read a) ∧
  ∀ (x : Reg) (s : State), 4096 ≤ s.indexAddr + 2 →
    ∃ a, exec (.ldBVx x) s = .next { s with engine := .faulted ⟨.memoryFault (max s.indexAddr 4096), a⟩ }

/-! ### Timers and input -/

/-- FX07, FX15, FX18 (46_timers.md R112, R113, R114). -/
def Obligations.TimerInstructions : Prop :=
  (∀ x : Reg,
    decode (BitVec.ofNat 16 (0xF007 + 0x100 * x.val)) = .instr (.ldVxDT x) ∧
    decode (BitVec.ofNat 16 (0xF015 + 0x100 * x.val)) = .instr (.ldDTVx x) ∧
    decode (BitVec.ofNat 16 (0xF018 + 0x100 * x.val)) = .instr (.ldSTVx x)) ∧
  ∀ (x : Reg) (s : State),
    (∃ t, exec (.ldVxDT x) s = .next t ∧ t = { s with V := t.V } ∧ t.reg x = s.DT ∧
      ∀ r : Reg, r ≠ x → t.reg r = s.reg r) ∧
    exec (.ldDTVx x) s = .next { s with DT := s.reg x } ∧
    exec (.ldSTVx x) s = .next { s with ST := s.reg x }

/-- FX0A (47_input.md R122): the engine waits; no key is looked at, no register written, `pc` left alone. -/
def Obligations.WaitForKeyEntersTheWait : Prop :=
  (∀ x : Reg, decode (BitVec.ofNat 16 (0xF00A + 0x100 * x.val)) = .instr (.ldVxK x)) ∧
  ∀ (x : Reg) (s : State), exec (.ldVxK x) s = .next { s with engine := .waitingForKey x }

/-! ### Display -/

/-- 00E0 (48_display.md R125): every pixel 0, nothing else changed. -/
def Obligations.ClearScreenZeroesEveryPixel : Prop :=
  decode 0x00E0 = .instr .cls ∧
  ∀ s : State, ∃ t, exec .cls s = .next t ∧ t = { s with DISP := t.DISP } ∧
    ∀ (col : Fin 64) (row : Fin 32), t.DISP.pixel col row = false

/-- DXYN is an XOR (R127): a sprite bit 0 leaves its pixel unchanged, a sprite bit 1 inverts it. Where a sprite bit lands, the
most significant bit leftmost, columns modulo 64 and rows modulo 32, and which sprites are in range are R126's; N = 0, which
draws nothing, is the spec's derivation and its decision D17. No other pixel changes. -/
def Obligations.DrawXorsTheSprite : Prop :=
  ∀ (x y : Reg) (n : Nat) (s : State), n < 16 → (n = 0 ∨ s.indexAddr + n ≤ 4096) →
    ∃ t, exec (.drwVxVyNibble x y n) s = .next t ∧
      (∀ (r c : Nat) (col : Fin 64) (row : Fin 32), r < n → c < 8 →
        col.val = ((s.reg x).toNat + c) % 64 → row.val = ((s.reg y).toNat + r) % 32 →
        t.DISP.pixel col row =
          if (s.MEM.read (s.indexAddr + r)).getLsbD (7 - c) = true then !s.DISP.pixel col row
          else s.DISP.pixel col row) ∧
      ∀ (col : Fin 64) (row : Fin 32),
        (¬ ∃ r c : Nat, r < n ∧ c < 8 ∧ col.val = ((s.reg x).toNat + c) % 64 ∧
          row.val = ((s.reg y).toNat + r) % 32) →
        t.DISP.pixel col row = s.DISP.pixel col row

/-- What else DXYN does (R126; N = 0 is the spec's derivation, the check before any write its decision D17): with the
sprite inside memory, or N = 0, it writes the display and VF only, VF = 1 exactly when a set sprite bit meets a set pixel;
with a sprite row outside memory it raises MemoryFault at the lowest address outside, and changes nothing else. -/
def Obligations.DrawSetsTheCollisionFlag : Prop :=
  (∀ (x y : Reg) (n : Nat), n < 16 →
    decode (BitVec.ofNat 16 (0xD000 + 0x100 * x.val + 0x10 * y.val + n)) = .instr (.drwVxVyNibble x y n)) ∧
  (∀ (x y : Reg) (n : Nat) (s : State), n < 16 → (n = 0 ∨ s.indexAddr + n ≤ 4096) →
    ∃ t, exec (.drwVxVyNibble x y n) s = .next t ∧ t = { s with V := t.V, DISP := t.DISP } ∧
      (∀ r : Reg, r ≠ VF → t.reg r = s.reg r) ∧ (t.reg VF = 0 ∨ t.reg VF = 1) ∧
      (t.reg VF = 1 ↔ ∃ (col : Fin 64) (row : Fin 32), s.DISP.pixel col row = true ∧ t.DISP.pixel col row = false)) ∧
  ∀ (x y : Reg) (n : Nat) (s : State), 0 < n → n < 16 → 4096 < s.indexAddr + n →
    exec (.drwVxVyNibble x y n) s =
      .next { s with engine := .faulted ⟨.memoryFault (max s.indexAddr 4096), s.pc - 2⟩ }

/-- Involution (R128, which the spec derives from R126): the same DXYN twice, with coordinates in registers other than
VF, restores the display. The second VF is 1 exactly when a set sprite bit meets a pixel that was 0 before the first draw;
R128's "if and only if the sprite has at least one set bit" follows from R126 only where the first draw meets no set pixel,
and is stated so (log entry 13). -/
def Obligations.DrawingTwiceRestoresTheDisplay : Prop :=
  ∀ (x y : Reg) (n : Nat) (s : State), x ≠ VF → y ≠ VF → n < 16 → (n = 0 ∨ s.indexAddr + n ≤ 4096) →
    ∃ t u, exec (.drwVxVyNibble x y n) s = .next t ∧ exec (.drwVxVyNibble x y n) t = .next u ∧
      u = { s with V := u.V } ∧ (∀ r : Reg, r ≠ VF → u.reg r = s.reg r) ∧
      (u.reg VF = 1 ↔ ∃ (r c : Nat) (col : Fin 64) (row : Fin 32), r < n ∧ c < 8 ∧
        col.val = ((s.reg x).toNat + c) % 64 ∧ row.val = ((s.reg y).toNat + r) % 32 ∧
        (s.MEM.read (s.indexAddr + r)).getLsbD (7 - c) = true ∧ s.DISP.pixel col row = false) ∧
      (t.reg VF = 0 → (u.reg VF = 1 ↔ ∃ r, r < n ∧ s.MEM.read (s.indexAddr + r) ≠ 0))

/-! ### Rules over all instructions -/

/-- How `pc` moves (10_state.md R20): a step that runs no instruction, because the engine is not Running or the fetch fails,
leaves it alone; any other adds 2, or 4 for a taken skip, or is a jump, a jump with offset, a call or a return. -/
def Obligations.PcMovesOnlyAsListed : Prop :=
  ∀ s t : State, step s = .next t →
    ((s.engine ≠ .running ∨ 4095 ≤ s.pc.toNat) → t.pc = s.pc) ∧
    (s.engine = .running → s.pc.toNat < 4095 →
      t.pc = s.pc + 2 ∨
      ∃ i, decode (bigEndian (s.MEM.read s.pc.toNat) (s.MEM.read (s.pc.toNat + 1))) = .instr i ∧
        ((t.pc = s.pc + 4 ∧
            ((∃ x nn, i = .seVxByte x nn) ∨ (∃ x nn, i = .sneVxByte x nn) ∨ (∃ x y, i = .seVxVy x y) ∨
              (∃ x y, i = .sneVxVy x y) ∨ (∃ x, i = .skpVx x) ∨ (∃ x, i = .sknpVx x))) ∨
          ((∃ a, i = .jpAddr a) ∨ (∃ a, i = .jpV0Addr a) ∨ (∃ a, i = .callAddr a) ∨ i = .ret)))

/-- Who writes what (10_state.md R24 to R29, 20_memory.md R40, 44_random.md R107): each piece of state other than V, `pc`
and the engine changes only in the instructions the rules name for it. -/
def Obligations.EachPieceOfStateHasItsWriters : Prop :=
  ∀ (i : Instr) (s t : State), exec i s = .next t →
    (t.I ≠ s.I → (∃ a, i = .ldIAddr a) ∨ (∃ x, i = .addIVx x) ∨ (∃ x, i = .ldFVx x) ∨
      (Params.memBlockIMode = .advance ∧ ((∃ x, i = .ldMemVx x) ∨ ∃ x, i = .ldVxMem x))) ∧
    (t.SP ≠ s.SP → (∃ a, i = .callAddr a) ∨ i = .ret) ∧
    (t.STACK ≠ s.STACK → ∃ a, i = .callAddr a) ∧
    (t.DT ≠ s.DT → ∃ x, i = .ldDTVx x) ∧
    (t.ST ≠ s.ST → ∃ x, i = .ldSTVx x) ∧
    t.KEY = s.KEY ∧
    (t.DISP ≠ s.DISP → i = .cls ∨ ∃ x y n, i = .drwVxVyNibble x y n) ∧
    (t.MEM ≠ s.MEM → (∃ x, i = .ldBVx x) ∨ ∃ x, i = .ldMemVx x) ∧
    (t.engine ≠ s.engine → (∃ x, t.engine = .waitingForKey x ∧ i = .ldVxK x) ∨ ∃ e, t.engine = .faulted e) ∧
    ((t.randInput ≠ s.randInput ∨ t.draws ≠ s.draws) → ∃ x nn, i = .rndVxByte x nn)

/-- Which registers an instruction writes (10_state.md R18, which the spec derives from the instruction rules): Vx, VF
as a flag, or V0..Vx for FX65. -/
def Obligations.RegistersWrittenAreTheTables : Prop :=
  ∀ (i : Instr) (s t : State) (r : Reg), exec i s = .next t → t.reg r ≠ s.reg r →
    (∃ x y, (i = .addVxVy x y ∨ i = .subVxVy x y ∨ i = .subnVxVy x y ∨ i = .shrVxVy x y ∨ i = .shlVxVy x y) ∧
      (r = x ∨ r = VF)) ∨
    (∃ x y, (i = .ldVxVy x y ∨ i = .orVxVy x y ∨ i = .andVxVy x y ∨ i = .xorVxVy x y) ∧ r = x) ∨
    (∃ x nn, (i = .ldVxByte x nn ∨ i = .addVxByte x nn ∨ i = .rndVxByte x nn) ∧ r = x) ∨
    (i = .ldVxDT r) ∨
    (∃ x y n, i = .drwVxVyNibble x y n ∧ r = VF) ∨
    (∃ x, i = .addIVx x ∧ Params.iAddSetsVF = true ∧ r = VF) ∨
    ∃ x, i = .ldVxMem x ∧ r ≤ x

/-- The timers seen by the program (10_state.md R27): ST is read by no instruction and DT only by FX07. Changing such a
timer before an instruction changes nothing after it but that timer, where the instruction does not write it. -/
def Obligations.TimersAreReadOnlyByTheirReader : Prop :=
  ∀ (i : Instr) (s t : State) (v : Byte), exec i s = .next t →
    ((∀ x, i ≠ .ldSTVx x) → exec i { s with ST := v } = .next { t with ST := v }) ∧
    (∀ x, i = .ldSTVx x → exec i { s with ST := v } = .next t) ∧
    ((∀ x, i ≠ .ldDTVx x) → (∀ x, i ≠ .ldVxDT x) → exec i { s with DT := v } = .next { t with DT := v }) ∧
    (∀ x, i = .ldDTVx x → exec i { s with DT := v } = .next t)

/-- The keypad seen by the program (10_state.md R28): only EX9E and EXA1 read it; with any other keys pressed, every other
instruction does the same and leaves the keys as they are. -/
def Obligations.KeysAreReadOnlyByTheKeySkips : Prop :=
  ∀ (i : Instr) (s t : State) (keys : Vector Bool 16), exec i s = .next t →
    (∀ x, i ≠ .skpVx x) → (∀ x, i ≠ .sknpVx x) → exec i { s with KEY := keys } = .next { t with KEY := keys }

/-! ### The host's operations and reset -/

/-- `tick_timers()` (46_timers.md R115): each timer one less, floored at 0 on its own, and nothing else, in every engine
state. -/
def Obligations.TickDecrementsBothTimers : Prop :=
  ∀ h : Session, ∃ t, hostStep .tickTimers h = .next ({ h with machine := t }, .done) ∧
    t = { h.machine with DT := t.DT, ST := t.ST } ∧
    (t.DT.toNat = if h.machine.DT.toNat > 0 then h.machine.DT.toNat - 1 else 0) ∧
    (t.ST.toNat = if h.machine.ST.toNat > 0 then h.machine.ST.toNat - 1 else 0)

/-- `set_key(k, pressed)` (40_cycle.md R74): KEY[k] and nothing else, in every engine state. -/
def Obligations.SetKeyWritesOneKey : Prop :=
  ∀ (h : Session) (k : Key) (pressed : Bool), ∃ t,
    hostStep (.setKey k pressed) h = .next ({ h with machine := t }, .done) ∧
    t = { h.machine with KEY := t.KEY } ∧ t.key k = pressed ∧ ∀ j : Key, j ≠ k → t.key j = h.machine.key j

/-- `load(bytes)` before any other load and before the first step (70_reset_and_hazards.md R148, R150; the order is R149's):
up to 3584 bytes are copied to memory from 0x200 on, and every other byte and register is left alone; a longer ROM fails and
leaves everything as it was. Any other load is `BootOrderIsKept`'s. -/
def Obligations.LoadCopiesTheRom : Prop :=
  (∀ (h : Session) (bytes : List Byte), h.phase = .created → bytes.length ≤ 4096 - 0x200 →
    ∃ g, hostStep (.load bytes) h = .next (g, .done) ∧ g.machine = { h.machine with MEM := g.machine.MEM } ∧
      (∀ k b, bytes[k]? = some b → g.machine.MEM.read (0x200 + k) = b) ∧
      ∀ a, (a < 0x200 ∨ 0x200 + bytes.length ≤ a) → g.machine.MEM.read a = h.machine.MEM.read a) ∧
  ∀ (h : Session) (bytes : List Byte), h.phase = .created → 4096 - 0x200 < bytes.length →
    hostStep (.load bytes) h = .next (h, .loadError .romTooLarge)

/-- The host's reads (40_cycle.md R75, R71; 46_timers.md R117) answer the display, the sound timer and the engine state,
and change nothing; the tone is on exactly while ST is not 0. -/
def Obligations.ReadsChangeNothing : Prop :=
  ∀ h : Session, hostStep .readDisplay h = .next (h, .display h.machine.DISP) ∧
    hostStep .readSound h = .next (h, .sound h.machine.ST) ∧
    hostStep .readStatus h = .next (h, .status h.machine.engine) ∧
    (h.machine.toneOn = true ↔ h.machine.ST ≠ 0)

/-- The state after creation (70_reset_and_hazards.md R147, which the spec derives from 10_state.md; pc, the display, the
engine and the font rest on its decisions D4, D5, D6, D32). -/
def Obligations.ResetState : Prop :=
  (∀ r : Reg, State.reset.reg r = 0) ∧ State.reset.I = 0 ∧ State.reset.pc = 0x200 ∧ State.reset.SP = 0 ∧
  (∀ k : Fin 16, State.reset.slot k = 0) ∧ State.reset.DT = 0 ∧ State.reset.ST = 0 ∧
  (∀ k : Key, State.reset.key k = false) ∧
  (∀ (col : Fin 64) (row : Fin 32), State.reset.DISP.pixel col row = false) ∧
  State.reset.engine = .running ∧
  (∀ a, (a < 0x050 ∨ 0x0A0 ≤ a) → State.reset.MEM.read a = 0) ∧
  State.reset.MEM.readBytes 0x050 80 =
    [0xF0, 0x90, 0x90, 0x90, 0xF0, 0x20, 0x60, 0x20, 0x20, 0x70] ++
    [0xF0, 0x10, 0xF0, 0x80, 0xF0, 0xF0, 0x10, 0xF0, 0x10, 0xF0] ++
    [0x90, 0x90, 0xF0, 0x10, 0x10, 0xF0, 0x80, 0xF0, 0x10, 0xF0] ++
    [0xF0, 0x80, 0xF0, 0x90, 0xF0, 0xF0, 0x10, 0x20, 0x40, 0x40] ++
    [0xF0, 0x90, 0xF0, 0x90, 0xF0, 0xF0, 0x90, 0xF0, 0x10, 0xF0] ++
    [0xF0, 0x90, 0xF0, 0x90, 0x90, 0xE0, 0x90, 0xE0, 0x90, 0xE0] ++
    [0xF0, 0x80, 0x80, 0x80, 0xF0, 0xE0, 0x90, 0x90, 0x90, 0xE0] ++
    [0xF0, 0x80, 0xF0, 0x80, 0xF0, 0xF0, 0x80, 0xF0, 0x80, 0x80]

/-! ### The boot order -/

/-- Every host operation keeps the invariant, from every state that has it: `step` with any byte, `tick_timers`, `set_key`,
the reads, and `load` where the boot order admits it (log entry 10). -/
def Obligations.EveryHostOperationKeepsTheInvariant : Prop :=
  ∀ (h g : Session) (op : HostOp) (a : HostReply), h.machine.Inv → hostStep op h = .next (g, a) → g.machine.Inv

/-- The boot order (70_reset_and_hazards.md R149, the spec's decision D22; 93_implementation_defined.md row 20, `refuse`): a
load after a successful one, or after a step, is refused; a successful load and a step move the order on; a failed load and
every other operation leave it where it is. The phases are the model's record of it (log entry 10). -/
def Obligations.BootOrderIsKept : Prop :=
  (∀ (h : Session) (bytes : List Byte), h.phase ≠ .created → hostStep (.load bytes) h = .refused .loadOutOfOrder) ∧
  (∀ (h g : Session) (op : HostOp) (a : HostReply), hostStep op h = .next (g, a) →
    match op with
    | .load _ => (a = .done ∧ g.phase = .loaded) ∨ (a = .loadError .romTooLarge ∧ g = h)
    | .step _ => g.phase = .stepped
    | .tickTimers => g.phase = h.phase
    | .setKey _ _ => g.phase = h.phase
    | .readDisplay => g = h
    | .readSound => g = h
    | .readStatus => g = h) ∧
  Session.fresh.phase = .created ∧ Session.fresh.machine = State.reset

/-- The program in memory before the first step (70_reset_and_hazards.md R148, R149; D22, "Bytes past the ROM stay 0"; the
phases are log entry 10). In everything reachable: while no load has succeeded and no step has run, memory is that of
creation, and loading a ROM that fits gives memory with that ROM's bytes from 0x200 on, the bytes of creation below 0x200 and
0 past the ROM; after the one load, every operation but a step leaves memory as it is. -/
def Obligations.LoadedMemoryIsTheRomAndNothingElse : Prop :=
  ∀ h : Session, Reachable h →
    (h.phase = .created → h.machine.MEM = State.reset.MEM ∧
      ∀ bytes : List Byte, bytes.length ≤ 4096 - 0x200 →
        ∃ g, hostStep (.load bytes) h = .next (g, .done) ∧ g.phase = .loaded ∧
          (∀ k b, bytes[k]? = some b → g.machine.MEM.read (0x200 + k) = b) ∧
          (∀ a, a < 0x200 → g.machine.MEM.read a = State.reset.MEM.read a) ∧
          ∀ a, 0x200 + bytes.length ≤ a → a < 4096 → g.machine.MEM.read a = 0) ∧
    (h.phase = .loaded → ∀ (op : HostOp) (g : Session) (a : HostReply), hostStep op h = .next (g, a) →
      (∀ rand, op ≠ .step rand) → g.machine.MEM = h.machine.MEM ∧ g.phase = .loaded)
end

