-- ==== Sys2Proof/Laws/Decode.lean ====
section
/-! SUPPORT. The fields of a word built from its nibbles (30_encoding.md R53), and of a word built from a group and an
NN or NNN operand; a word matched by mask and pattern, said on its nibbles. -/

namespace Sys2Proof

@[simp] theorem val_nibble (n : Nat) : (nibble n).val = n % 16 := rfl

@[simp] theorem nibble_val (x : Fin 16) : nibble x.val = x := Fin.ext (by simp only [val_nibble]; omega)

/-- The fields of the word with nibbles `g`, `x`, `y`, `n`. -/
theorem fields_of_nibbles (g x y n : Fin 16) {w : Word}
    (hw : w = BitVec.ofNat 16 (0x1000 * g.val + 0x100 * x.val + 0x10 * y.val + n.val)) :
    fieldG w = g.val ∧ fieldX w = x ∧ fieldY w = y ∧ fieldN w = n.val ∧
      (fieldNN w).toNat = 0x10 * y.val + n.val := by
  have ht : w.toNat = 0x1000 * g.val + 0x100 * x.val + 0x10 * y.val + n.val := by
    rw [hw, BitVec.toNat_ofNat]; omega
  refine ⟨by rw [fieldG, ht]; omega, Fin.ext ?_, Fin.ext ?_, by rw [fieldN, ht]; omega, ?_⟩
  · simp only [fieldX, val_nibble, ht]; omega
  · simp only [fieldY, val_nibble, ht]; omega
  · simp only [fieldNN, BitVec.toNat_ofNat, ht]; omega

/-- The fields of the word with group `g`, register `x` and immediate `nn`. -/
theorem fields_of_XNN (g x : Fin 16) (nn : Byte) {w : Word}
    (hw : w = BitVec.ofNat 16 (0x1000 * g.val + 0x100 * x.val + nn.toNat)) :
    fieldG w = g.val ∧ fieldX w = x ∧ fieldNN w = nn := by
  have hn := nn.isLt
  have ht : w.toNat = 0x1000 * g.val + 0x100 * x.val + nn.toNat := by
    rw [hw, BitVec.toNat_ofNat]; omega
  refine ⟨by rw [fieldG, ht]; omega, Fin.ext ?_, BitVec.eq_of_toNat_eq ?_⟩
  · simp only [fieldX, val_nibble, ht]; omega
  · simp only [fieldNN, BitVec.toNat_ofNat, ht]; omega

/-- The fields of the word with group `g` and 12-bit operand `a`. -/
theorem fields_of_NNN (g : Fin 16) (a : Addr) (ha : a.toNat < 4096) {w : Word}
    (hw : w = BitVec.ofNat 16 (0x1000 * g.val + a.toNat)) : fieldG w = g.val ∧ fieldNNN w = a := by
  have ht : w.toNat = 0x1000 * g.val + a.toNat := by rw [hw, BitVec.toNat_ofNat]; omega
  refine ⟨by rw [fieldG, ht]; omega, BitVec.eq_of_toNat_eq ?_⟩
  simp only [fieldNNN, BitVec.toNat_ofNat, ht]; omega

/-- A word is its group nibble and its NNN field. -/
theorem word_of_NNN (w : Word) : w = BitVec.ofNat 16 (0x1000 * fieldG w + (fieldNNN w).toNat) := by
  have := w.isLt
  refine BitVec.eq_of_toNat_eq ?_
  simp only [fieldG, fieldNNN, BitVec.toNat_ofNat]; omega

/-- A word is its group nibble, its X field and its NN field. -/
theorem word_of_XNN (w : Word) :
    w = BitVec.ofNat 16 (0x1000 * fieldG w + 0x100 * (fieldX w).val + (fieldNN w).toNat) := by
  have := w.isLt
  refine BitVec.eq_of_toNat_eq ?_
  simp only [fieldG, fieldX, fieldNN, val_nibble, BitVec.toNat_ofNat]; omega

/-- A word is its four nibbles. -/
theorem word_of_nibbles (w : Word) :
    w = BitVec.ofNat 16 (0x1000 * fieldG w + 0x100 * (fieldX w).val + 0x10 * (fieldY w).val + fieldN w) := by
  have := w.isLt
  refine BitVec.eq_of_toNat_eq ?_
  simp only [fieldG, fieldX, fieldY, fieldN, val_nibble, BitVec.toNat_ofNat]; omega

theorem fieldG_lt (w : Word) : fieldG w < 16 := by have := w.isLt; simp only [fieldG]; omega

theorem fieldN_lt (w : Word) : fieldN w < 16 := by simp only [fieldN]; omega

theorem fieldNNN_lt (w : Word) : (fieldNNN w).toNat < 4096 := by
  simp only [fieldNNN, BitVec.toNat_ofNat]; omega

/-! ### Masks, said on the fields -/

theorem toNat_and_F000 (w : Word) : (w &&& 0xF000#16).toNat = 0x1000 * fieldG w := by
  have h : w &&& 0xF000#16 = (w >>> 12) <<< 12 := by ext i hi; interval_cases i <;> simp
  rw [h, BitVec.toNat_shiftLeft, BitVec.toNat_ushiftRight, Nat.shiftLeft_eq, Nat.shiftRight_eq_div_pow, fieldG]
  have := w.isLt
  omega

theorem toNat_and_000F (w : Word) : (w &&& 0x000F#16).toNat = fieldN w := by
  rw [BitVec.toNat_and]; exact Nat.and_two_pow_sub_one_eq_mod w.toNat 4

theorem toNat_and_00FF (w : Word) : (w &&& 0x00FF#16).toNat = (fieldNN w).toNat := by
  rw [BitVec.toNat_and, fieldNN, BitVec.toNat_ofNat]; exact Nat.and_two_pow_sub_one_eq_mod w.toNat 8

/-- A mask made of two disjoint masks. -/
theorem and_split_eq_iff (w m n p : Word) (h : m &&& n = 0) :
    w &&& (m ||| n) = p ↔ w &&& m = p &&& m ∧ w &&& n = p &&& n ∧ p &&& (m ||| n) = p := by
  have hb : ∀ i : Nat, ¬ (m.getLsbD i = true ∧ n.getLsbD i = true) := fun i ⟨h1, h2⟩ => by
    have := congrArg (·.getLsbD i) h
    simp [h1, h2] at this
  constructor
  · rintro rfl
    refine ⟨?_, ?_, ?_⟩ <;> (ext i hi; simp; try grind)
  · rintro ⟨h1, h2, h3⟩
    rw [← h3]
    ext i hi
    have e1 := congrArg (·.getLsbD i) h1
    have e2 := congrArg (·.getLsbD i) h2
    simp at e1 e2 ⊢
    grind

/-- Rows of the NNN, XNN and XYN forms admit the words of their group. -/
theorem admits_F000 {p w : Word} (hp : p &&& 0xF000#16 = p) :
    (OpcodeRow.mk p 0xF000).admits w = true ↔ fieldG w = fieldG p := by
  simp only [OpcodeRow.admits, beq_iff_eq]
  change w &&& 0xF000#16 = p ↔ _
  constructor
  · intro h
    have := congrArg BitVec.toNat (h.trans hp.symm)
    rw [toNat_and_F000, toNat_and_F000] at this
    omega
  · intro h
    exact (BitVec.eq_of_toNat_eq (by rw [toNat_and_F000, toNat_and_F000, h])).trans hp

/-- Rows of the XY form admit the words of their group and sub-opcode N. -/
theorem admits_F00F {p w : Word} (hp : p &&& 0xF00F#16 = p) :
    (OpcodeRow.mk p 0xF00F).admits w = true ↔ fieldG w = fieldG p ∧ fieldN w = fieldN p := by
  simp only [OpcodeRow.admits, beq_iff_eq]
  rw [show (0xF00F : Word) = 0xF000#16 ||| 0x000F#16 from rfl, and_split_eq_iff _ _ _ _ (by decide)]
  refine ⟨fun ⟨h1, h2, _⟩ => ?_, fun ⟨h1, h2⟩ => ⟨BitVec.eq_of_toNat_eq ?_, BitVec.eq_of_toNat_eq ?_, hp⟩⟩
  · have h1 := congrArg BitVec.toNat h1
    have h2 := congrArg BitVec.toNat h2
    rw [toNat_and_F000, toNat_and_F000] at h1
    rw [toNat_and_000F, toNat_and_000F] at h2
    exact ⟨by omega, h2⟩
  · rw [toNat_and_F000, toNat_and_F000, h1]
  · rw [toNat_and_000F, toNat_and_000F, h2]

/-- Rows of the X form admit the words of their group and sub-opcode NN. -/
theorem admits_F0FF {p w : Word} (hp : p &&& 0xF0FF#16 = p) :
    (OpcodeRow.mk p 0xF0FF).admits w = true ↔ fieldG w = fieldG p ∧ fieldNN w = fieldNN p := by
  simp only [OpcodeRow.admits, beq_iff_eq]
  rw [show (0xF0FF : Word) = 0xF000#16 ||| 0x00FF#16 from rfl, and_split_eq_iff _ _ _ _ (by decide)]
  refine ⟨fun ⟨h1, h2, _⟩ => ?_, fun ⟨h1, h2⟩ => ⟨BitVec.eq_of_toNat_eq ?_, BitVec.eq_of_toNat_eq ?_, hp⟩⟩
  · have h1 := congrArg BitVec.toNat h1
    have h2 := congrArg BitVec.toNat h2
    rw [toNat_and_F000, toNat_and_F000] at h1
    rw [toNat_and_00FF, toNat_and_00FF] at h2
    exact ⟨by omega, BitVec.eq_of_toNat_eq h2⟩
  · rw [toNat_and_F000, toNat_and_F000, h1]
  · rw [toNat_and_00FF, toNat_and_00FF, h2]

/-- Rows of the NONE form admit one word. -/
theorem admits_FFFF {p w : Word} : (OpcodeRow.mk p 0xFFFF).admits w = true ↔ w = p := by
  simp only [OpcodeRow.admits, beq_iff_eq]
  rw [show (0xFFFF : Word) = BitVec.allOnes 16 from rfl, BitVec.and_allOnes]

end Sys2Proof
end

