-- ==== Sys2Proof/Laws/Memory.lean ====
section
/-! SUPPORT. The laws of memory: a read after a write, bytes left alone, and the canonical form kept by every
memory operation. -/

namespace Sys2Proof.Machine.Memory

/-- Reading after listing a byte. -/
theorem read_insert (m : Memory) (a : Nat) (v : Byte) (b : Nat) :
    (m.insert a v).read b = if b = a then v else m.read b := by
  induction m with
  | nil => simp [insert, read, eq_comm]
  | cons c rest ih =>
    obtain ⟨k, w⟩ := c
    simp only [insert]
    split
    · simp only [read, ih]
      split <;> split <;> first | rfl | omega
    · split
      · simp only [read]
        split <;> split <;> first | rfl | omega | skip
        split <;> first | rfl | omega
      · simp only [read, eq_comm]

/-- Reading after unlisting an address. -/
theorem read_filter (m : Memory) (a b : Nat) :
    Memory.read (m.filter (fun c => c.1 != a)) b = if b = a then resetByte b else m.read b := by
  induction m with
  | nil => simp [read]
  | cons c rest ih =>
    obtain ⟨k, w⟩ := c
    by_cases hk : k = a
    · subst hk
      rw [List.filter_cons_of_neg (by simp), ih]
      simp only [read]
      by_cases hb : b = k
      · simp [hb]
      · rw [if_neg hb, if_neg hb, if_neg (Ne.symm hb)]
    · rw [List.filter_cons_of_pos (by simpa using hk)]
      simp only [read, ih]
      split <;> split <;> first | rfl | omega

/-- A write changes only the one byte written (20_memory.md R42), whatever the list. -/
@[simp] theorem read_write (m : Memory) (a : Nat) (v : Byte) (b : Nat) :
    (m.write a v).read b = if b = a then v else m.read b := by
  unfold write
  split
  · next h => rw [read_filter]; split
              · next hb => rw [h, hb]
              · rfl
  · exact read_insert m a v b

/-- Reading after a block of bytes was written. -/
theorem read_writeBytes (m : Memory) (a : Nat) (bs : List Byte) (b : Nat) :
    (m.writeBytes a bs).read b = if a ≤ b ∧ b < a + bs.length then bs.getD (b - a) 0 else m.read b := by
  induction bs generalizing m a with
  | nil => rw [if_neg (by simp only [List.length_nil]; omega)]; rfl
  | cons v bs ih =>
    simp only [writeBytes, ih, read_write, List.length_cons]
    by_cases h : b = a
    · subst h; simp
    · by_cases h2 : a + 1 ≤ b ∧ b < a + 1 + bs.length
      · rw [if_pos h2, if_pos (by omega), show b - a = (b - (a + 1)) + 1 by omega, List.getD_cons_succ]
      · rw [if_neg h2, if_neg h, if_neg (by omega)]

/-- A block of bytes leaves every byte outside it alone. -/
theorem read_writeBytes_outside (m : Memory) (a : Nat) (bs : List Byte) (b : Nat) (h : b < a ∨ a + bs.length ≤ b) :
    (m.writeBytes a bs).read b = m.read b := by
  rw [read_writeBytes, if_neg (by omega)]

@[simp] theorem length_readBytes (m : Memory) (a n : Nat) : (m.readBytes a n).length = n := by
  induction n generalizing a with
  | zero => rfl
  | succ n ih => simp [readBytes, ih]

/-- The bytes of a block. -/
theorem getElem_readBytes (m : Memory) (a n k : Nat) (h : k < (m.readBytes a n).length) :
    (m.readBytes a n)[k] = m.read (a + k) := by
  induction n generalizing a k with
  | zero => simp [readBytes] at h
  | succ n ih =>
    cases k with
    | zero => simp [readBytes]
    | succ k =>
      simp only [readBytes, List.getElem_cons_succ]
      rw [ih]; congr 1; omega

/-- The bytes of a block, by `getD`. -/
theorem getD_readBytes (m : Memory) (a n k : Nat) (h : k < n) : (m.readBytes a n).getD k 0 = m.read (a + k) := by
  rw [List.getD_eq_getElem _ _ (by simpa), getElem_readBytes]

/-- Past the font every byte of memory is 0 at creation (10_state.md R30). -/
theorem resetByte_past_font {a : Nat} (h : 0x0A0 ≤ a) : resetByte a = 0 := by
  have hb : ¬ a < Params.fontBase := by rw [Params.fontBase]; omega
  have hl : Params.fontData.length ≤ a - Params.fontBase := by
    rw [show Params.fontData.length = 80 from rfl, Params.fontBase]; omega
  rw [resetByte, if_neg hb, List.getD_eq_default _ _ hl]

/-! ### The canonical form -/

/-- What the canonical form says of a list with a first byte. -/
theorem wf_cons {k : Nat} {v : Byte} {rest : Memory} :
    Memory.wf ((k, v) :: rest) = true ↔
      k < Config.memSize ∧ v ≠ resetByte k ∧ (∀ c ∈ rest, k < c.1) ∧ rest.wf = true := by
  simp [wf, and_assoc]

/-- Which addresses are listed after listing one. -/
theorem mem_insert_fst {m : Memory} {a : Nat} {v : Byte} {c : Host.Cell} (h : c ∈ m.insert a v) :
    c.1 = a ∨ c ∈ m := by
  induction m with
  | nil => simp [insert] at h; exact .inl (by rw [h])
  | cons d rest ih =>
    obtain ⟨k, w⟩ := d
    simp only [insert] at h
    split at h
    · rcases List.mem_cons.mp h with h | h
      · exact .inr (h ▸ List.mem_cons_self)
      · exact (ih h).imp_right (List.mem_cons_of_mem _)
    · split at h
      · rcases List.mem_cons.mp h with h | h
        · exact .inl (by rw [h])
        · exact .inr (List.mem_cons_of_mem _ h)
      · rcases List.mem_cons.mp h with h | h
        · exact .inl (by rw [h])
        · exact .inr h

theorem wf_insert {m : Memory} {a : Nat} {v : Byte} (hm : m.wf = true) (ha : a < Config.memSize)
    (hv : v ≠ resetByte a) : (m.insert a v).wf = true := by
  induction m with
  | nil => exact wf_cons.mpr ⟨ha, hv, by simp, rfl⟩
  | cons c rest ih =>
    obtain ⟨k, w⟩ := c
    obtain ⟨hk, hw, hlt, hr⟩ := wf_cons.mp hm
    simp only [insert]
    split
    · next h =>
      refine wf_cons.mpr ⟨hk, hw, fun c hc => ?_, ih hr⟩
      rcases mem_insert_fst hc with e | hc
      · omega
      · exact hlt c hc
    · split
      · next h => subst h; exact wf_cons.mpr ⟨ha, hv, hlt, hr⟩
      · refine wf_cons.mpr ⟨ha, hv, fun c hc => ?_, hm⟩
        rcases List.mem_cons.mp hc with e | hc
        · subst e; simp only; omega
        · have := hlt c hc; omega

theorem wf_filter {m : Memory} {p : Host.Cell → Bool} (hm : m.wf = true) : Memory.wf (m.filter p) = true := by
  induction m with
  | nil => rfl
  | cons c rest ih =>
    obtain ⟨k, w⟩ := c
    obtain ⟨hk, hw, hlt, hr⟩ := wf_cons.mp hm
    by_cases hp : p (k, w) = true
    · rw [List.filter_cons_of_pos hp]
      exact wf_cons.mpr ⟨hk, hw, fun c hc => hlt c (List.mem_filter.mp hc).1, ih hr⟩
    · rw [List.filter_cons_of_neg hp]; exact ih hr

/-- A write to an address of memory keeps the canonical form. -/
theorem wf_write {m : Memory} {a : Nat} {v : Byte} (hm : m.wf = true) (ha : a < Config.memSize) :
    (m.write a v).wf = true := by
  unfold write
  split
  · exact wf_filter hm
  · next h => exact wf_insert hm ha h

/-- A block written inside memory keeps the canonical form. -/
theorem wf_writeBytes {m : Memory} {a : Nat} {bs : List Byte} (hm : m.wf = true)
    (ha : a + bs.length ≤ Config.memSize) : (m.writeBytes a bs).wf = true := by
  induction bs generalizing m a with
  | nil => exact hm
  | cons b bs ih =>
    simp only [List.length_cons] at ha
    exact ih (wf_write hm (by omega)) (by omega)

/-- An address that is not listed reads as its reset contents. -/
theorem read_of_not_listed {m : Memory} {a : Nat} (h : ∀ c ∈ m, c.1 ≠ a) : m.read a = resetByte a := by
  induction m with
  | nil => rfl
  | cons c rest ih =>
    obtain ⟨k, w⟩ := c
    simp only [read]
    rw [if_neg (by simpa using h (k, w) List.mem_cons_self)]
    exact ih fun c hc => h c (List.mem_cons_of_mem _ hc)

/-- Equal memories are equal data: two canonical memories that read alike are the same list. -/
theorem ext_of_wf {m n : Memory} (hm : m.wf = true) (hn : n.wf = true) (h : ∀ a, m.read a = n.read a) : m = n := by
  induction m generalizing n with
  | nil =>
    cases n with
    | nil => rfl
    | cons c rest =>
      obtain ⟨k, w⟩ := c
      obtain ⟨_, hw, _, _⟩ := wf_cons.mp hn
      have := h k
      simp [read] at this
      exact absurd this.symm hw
  | cons c rest ih =>
    obtain ⟨k, w⟩ := c
    obtain ⟨_, hw, hlt, hr⟩ := wf_cons.mp hm
    cases n with
    | nil => have := h k; simp [read] at this; exact absurd this hw
    | cons d rest' =>
      obtain ⟨k', w'⟩ := d
      obtain ⟨_, hw', hlt', hr'⟩ := wf_cons.mp hn
      have hk : k = k' := by
        rcases Nat.lt_trichotomy k k' with hlt1 | e | hlt1
        · have := h k
          rw [read_of_not_listed (m := (k', w') :: rest')] at this
          · simp [read] at this; exact absurd this hw
          · intro c hc
            rcases List.mem_cons.mp hc with e | hc
            · subst e; simp only; omega
            · have := hlt' c hc; omega
        · exact e
        · have := h k'
          rw [read_of_not_listed (m := (k, w) :: rest)] at this
          · simp [read] at this; exact absurd this.symm hw'
          · intro c hc
            rcases List.mem_cons.mp hc with e | hc
            · subst e; simp only; omega
            · have := hlt c hc; omega
      subst hk
      have hww : w = w' := by have := h k; simpa [read] using this
      subst hww
      congr 1
      refine ih hr hr' fun a => ?_
      by_cases ha : k = a
      · subst ha
        rw [read_of_not_listed fun c hc => (by have := hlt c hc; omega),
          read_of_not_listed fun c hc => (by have := hlt' c hc; omega)]
      · have := h a
        simpa [read, ha] using this

end Sys2Proof.Machine.Memory
end

