-- ==== Sys2Proof/Laws/State.lean ====
section
/-! SUPPORT. What each update of the state does to each field, and to each register, slot and key read. -/

namespace Sys2Proof.Machine.State

variable (s : State)

/-! ### setReg -/

@[simp] theorem setReg_V (r : Reg) (v : Byte) : (s.setReg r v).V = s.V.set r.val v := rfl
@[simp] theorem setReg_I (r : Reg) (v : Byte) : (s.setReg r v).I = s.I := rfl
@[simp] theorem setReg_pc (r : Reg) (v : Byte) : (s.setReg r v).pc = s.pc := rfl
@[simp] theorem setReg_SP (r : Reg) (v : Byte) : (s.setReg r v).SP = s.SP := rfl
@[simp] theorem setReg_STACK (r : Reg) (v : Byte) : (s.setReg r v).STACK = s.STACK := rfl
@[simp] theorem setReg_DT (r : Reg) (v : Byte) : (s.setReg r v).DT = s.DT := rfl
@[simp] theorem setReg_ST (r : Reg) (v : Byte) : (s.setReg r v).ST = s.ST := rfl
@[simp] theorem setReg_KEY (r : Reg) (v : Byte) : (s.setReg r v).KEY = s.KEY := rfl
@[simp] theorem setReg_DISP (r : Reg) (v : Byte) : (s.setReg r v).DISP = s.DISP := rfl
@[simp] theorem setReg_MEM (r : Reg) (v : Byte) : (s.setReg r v).MEM = s.MEM := rfl
@[simp] theorem setReg_engine (r : Reg) (v : Byte) : (s.setReg r v).engine = s.engine := rfl
@[simp] theorem setReg_randInput (r : Reg) (v : Byte) : (s.setReg r v).randInput = s.randInput := rfl
@[simp] theorem setReg_draws (r : Reg) (v : Byte) : (s.setReg r v).draws = s.draws := rfl
@[simp] theorem setReg_slot (r : Reg) (v : Byte) (k' : Fin 16) : (s.setReg r v).slot k' = s.slot k' := rfl
@[simp] theorem setReg_key (r : Reg) (v : Byte) (k' : Key) : (s.setReg r v).key k' = s.key k' := rfl

/-! ### setI -/

@[simp] theorem setI_V (a : Addr) : (s.setI a).V = s.V := rfl
@[simp] theorem setI_I (a : Addr) : (s.setI a).I = a := rfl
@[simp] theorem setI_pc (a : Addr) : (s.setI a).pc = s.pc := rfl
@[simp] theorem setI_SP (a : Addr) : (s.setI a).SP = s.SP := rfl
@[simp] theorem setI_STACK (a : Addr) : (s.setI a).STACK = s.STACK := rfl
@[simp] theorem setI_DT (a : Addr) : (s.setI a).DT = s.DT := rfl
@[simp] theorem setI_ST (a : Addr) : (s.setI a).ST = s.ST := rfl
@[simp] theorem setI_KEY (a : Addr) : (s.setI a).KEY = s.KEY := rfl
@[simp] theorem setI_DISP (a : Addr) : (s.setI a).DISP = s.DISP := rfl
@[simp] theorem setI_MEM (a : Addr) : (s.setI a).MEM = s.MEM := rfl
@[simp] theorem setI_engine (a : Addr) : (s.setI a).engine = s.engine := rfl
@[simp] theorem setI_randInput (a : Addr) : (s.setI a).randInput = s.randInput := rfl
@[simp] theorem setI_draws (a : Addr) : (s.setI a).draws = s.draws := rfl
@[simp] theorem setI_reg (a : Addr) (r' : Reg) : (s.setI a).reg r' = s.reg r' := rfl
@[simp] theorem setI_slot (a : Addr) (k' : Fin 16) : (s.setI a).slot k' = s.slot k' := rfl
@[simp] theorem setI_key (a : Addr) (k' : Key) : (s.setI a).key k' = s.key k' := rfl

/-! ### setPc -/

@[simp] theorem setPc_V (a : Addr) : (s.setPc a).V = s.V := rfl
@[simp] theorem setPc_I (a : Addr) : (s.setPc a).I = s.I := rfl
@[simp] theorem setPc_pc (a : Addr) : (s.setPc a).pc = a := rfl
@[simp] theorem setPc_SP (a : Addr) : (s.setPc a).SP = s.SP := rfl
@[simp] theorem setPc_STACK (a : Addr) : (s.setPc a).STACK = s.STACK := rfl
@[simp] theorem setPc_DT (a : Addr) : (s.setPc a).DT = s.DT := rfl
@[simp] theorem setPc_ST (a : Addr) : (s.setPc a).ST = s.ST := rfl
@[simp] theorem setPc_KEY (a : Addr) : (s.setPc a).KEY = s.KEY := rfl
@[simp] theorem setPc_DISP (a : Addr) : (s.setPc a).DISP = s.DISP := rfl
@[simp] theorem setPc_MEM (a : Addr) : (s.setPc a).MEM = s.MEM := rfl
@[simp] theorem setPc_engine (a : Addr) : (s.setPc a).engine = s.engine := rfl
@[simp] theorem setPc_randInput (a : Addr) : (s.setPc a).randInput = s.randInput := rfl
@[simp] theorem setPc_draws (a : Addr) : (s.setPc a).draws = s.draws := rfl
@[simp] theorem setPc_reg (a : Addr) (r' : Reg) : (s.setPc a).reg r' = s.reg r' := rfl
@[simp] theorem setPc_slot (a : Addr) (k' : Fin 16) : (s.setPc a).slot k' = s.slot k' := rfl
@[simp] theorem setPc_key (a : Addr) (k' : Key) : (s.setPc a).key k' = s.key k' := rfl

/-! ### setSP -/

@[simp] theorem setSP_V (n : BitVec 8) : (s.setSP n).V = s.V := rfl
@[simp] theorem setSP_I (n : BitVec 8) : (s.setSP n).I = s.I := rfl
@[simp] theorem setSP_pc (n : BitVec 8) : (s.setSP n).pc = s.pc := rfl
@[simp] theorem setSP_SP (n : BitVec 8) : (s.setSP n).SP = n := rfl
@[simp] theorem setSP_STACK (n : BitVec 8) : (s.setSP n).STACK = s.STACK := rfl
@[simp] theorem setSP_DT (n : BitVec 8) : (s.setSP n).DT = s.DT := rfl
@[simp] theorem setSP_ST (n : BitVec 8) : (s.setSP n).ST = s.ST := rfl
@[simp] theorem setSP_KEY (n : BitVec 8) : (s.setSP n).KEY = s.KEY := rfl
@[simp] theorem setSP_DISP (n : BitVec 8) : (s.setSP n).DISP = s.DISP := rfl
@[simp] theorem setSP_MEM (n : BitVec 8) : (s.setSP n).MEM = s.MEM := rfl
@[simp] theorem setSP_engine (n : BitVec 8) : (s.setSP n).engine = s.engine := rfl
@[simp] theorem setSP_randInput (n : BitVec 8) : (s.setSP n).randInput = s.randInput := rfl
@[simp] theorem setSP_draws (n : BitVec 8) : (s.setSP n).draws = s.draws := rfl
@[simp] theorem setSP_reg (n : BitVec 8) (r' : Reg) : (s.setSP n).reg r' = s.reg r' := rfl
@[simp] theorem setSP_slot (n : BitVec 8) (k' : Fin 16) : (s.setSP n).slot k' = s.slot k' := rfl
@[simp] theorem setSP_key (n : BitVec 8) (k' : Key) : (s.setSP n).key k' = s.key k' := rfl

/-! ### setSlot -/

@[simp] theorem setSlot_V (k : Fin 16) (a : Addr) : (s.setSlot k a).V = s.V := rfl
@[simp] theorem setSlot_I (k : Fin 16) (a : Addr) : (s.setSlot k a).I = s.I := rfl
@[simp] theorem setSlot_pc (k : Fin 16) (a : Addr) : (s.setSlot k a).pc = s.pc := rfl
@[simp] theorem setSlot_SP (k : Fin 16) (a : Addr) : (s.setSlot k a).SP = s.SP := rfl
@[simp] theorem setSlot_STACK (k : Fin 16) (a : Addr) : (s.setSlot k a).STACK = s.STACK.set k.val a := rfl
@[simp] theorem setSlot_DT (k : Fin 16) (a : Addr) : (s.setSlot k a).DT = s.DT := rfl
@[simp] theorem setSlot_ST (k : Fin 16) (a : Addr) : (s.setSlot k a).ST = s.ST := rfl
@[simp] theorem setSlot_KEY (k : Fin 16) (a : Addr) : (s.setSlot k a).KEY = s.KEY := rfl
@[simp] theorem setSlot_DISP (k : Fin 16) (a : Addr) : (s.setSlot k a).DISP = s.DISP := rfl
@[simp] theorem setSlot_MEM (k : Fin 16) (a : Addr) : (s.setSlot k a).MEM = s.MEM := rfl
@[simp] theorem setSlot_engine (k : Fin 16) (a : Addr) : (s.setSlot k a).engine = s.engine := rfl
@[simp] theorem setSlot_randInput (k : Fin 16) (a : Addr) : (s.setSlot k a).randInput = s.randInput := rfl
@[simp] theorem setSlot_draws (k : Fin 16) (a : Addr) : (s.setSlot k a).draws = s.draws := rfl
@[simp] theorem setSlot_reg (k : Fin 16) (a : Addr) (r' : Reg) : (s.setSlot k a).reg r' = s.reg r' := rfl
@[simp] theorem setSlot_key (k : Fin 16) (a : Addr) (k' : Key) : (s.setSlot k a).key k' = s.key k' := rfl

/-! ### setDT -/

@[simp] theorem setDT_V (v : Byte) : (s.setDT v).V = s.V := rfl
@[simp] theorem setDT_I (v : Byte) : (s.setDT v).I = s.I := rfl
@[simp] theorem setDT_pc (v : Byte) : (s.setDT v).pc = s.pc := rfl
@[simp] theorem setDT_SP (v : Byte) : (s.setDT v).SP = s.SP := rfl
@[simp] theorem setDT_STACK (v : Byte) : (s.setDT v).STACK = s.STACK := rfl
@[simp] theorem setDT_DT (v : Byte) : (s.setDT v).DT = v := rfl
@[simp] theorem setDT_ST (v : Byte) : (s.setDT v).ST = s.ST := rfl
@[simp] theorem setDT_KEY (v : Byte) : (s.setDT v).KEY = s.KEY := rfl
@[simp] theorem setDT_DISP (v : Byte) : (s.setDT v).DISP = s.DISP := rfl
@[simp] theorem setDT_MEM (v : Byte) : (s.setDT v).MEM = s.MEM := rfl
@[simp] theorem setDT_engine (v : Byte) : (s.setDT v).engine = s.engine := rfl
@[simp] theorem setDT_randInput (v : Byte) : (s.setDT v).randInput = s.randInput := rfl
@[simp] theorem setDT_draws (v : Byte) : (s.setDT v).draws = s.draws := rfl
@[simp] theorem setDT_reg (v : Byte) (r' : Reg) : (s.setDT v).reg r' = s.reg r' := rfl
@[simp] theorem setDT_slot (v : Byte) (k' : Fin 16) : (s.setDT v).slot k' = s.slot k' := rfl
@[simp] theorem setDT_key (v : Byte) (k' : Key) : (s.setDT v).key k' = s.key k' := rfl

/-! ### setST -/

@[simp] theorem setST_V (v : Byte) : (s.setST v).V = s.V := rfl
@[simp] theorem setST_I (v : Byte) : (s.setST v).I = s.I := rfl
@[simp] theorem setST_pc (v : Byte) : (s.setST v).pc = s.pc := rfl
@[simp] theorem setST_SP (v : Byte) : (s.setST v).SP = s.SP := rfl
@[simp] theorem setST_STACK (v : Byte) : (s.setST v).STACK = s.STACK := rfl
@[simp] theorem setST_DT (v : Byte) : (s.setST v).DT = s.DT := rfl
@[simp] theorem setST_ST (v : Byte) : (s.setST v).ST = v := rfl
@[simp] theorem setST_KEY (v : Byte) : (s.setST v).KEY = s.KEY := rfl
@[simp] theorem setST_DISP (v : Byte) : (s.setST v).DISP = s.DISP := rfl
@[simp] theorem setST_MEM (v : Byte) : (s.setST v).MEM = s.MEM := rfl
@[simp] theorem setST_engine (v : Byte) : (s.setST v).engine = s.engine := rfl
@[simp] theorem setST_randInput (v : Byte) : (s.setST v).randInput = s.randInput := rfl
@[simp] theorem setST_draws (v : Byte) : (s.setST v).draws = s.draws := rfl
@[simp] theorem setST_reg (v : Byte) (r' : Reg) : (s.setST v).reg r' = s.reg r' := rfl
@[simp] theorem setST_slot (v : Byte) (k' : Fin 16) : (s.setST v).slot k' = s.slot k' := rfl
@[simp] theorem setST_key (v : Byte) (k' : Key) : (s.setST v).key k' = s.key k' := rfl

/-! ### setKey -/

@[simp] theorem setKey_V (k : Key) (p : Bool) : (s.setKey k p).V = s.V := rfl
@[simp] theorem setKey_I (k : Key) (p : Bool) : (s.setKey k p).I = s.I := rfl
@[simp] theorem setKey_pc (k : Key) (p : Bool) : (s.setKey k p).pc = s.pc := rfl
@[simp] theorem setKey_SP (k : Key) (p : Bool) : (s.setKey k p).SP = s.SP := rfl
@[simp] theorem setKey_STACK (k : Key) (p : Bool) : (s.setKey k p).STACK = s.STACK := rfl
@[simp] theorem setKey_DT (k : Key) (p : Bool) : (s.setKey k p).DT = s.DT := rfl
@[simp] theorem setKey_ST (k : Key) (p : Bool) : (s.setKey k p).ST = s.ST := rfl
@[simp] theorem setKey_KEY (k : Key) (p : Bool) : (s.setKey k p).KEY = s.KEY.set k.val p := rfl
@[simp] theorem setKey_DISP (k : Key) (p : Bool) : (s.setKey k p).DISP = s.DISP := rfl
@[simp] theorem setKey_MEM (k : Key) (p : Bool) : (s.setKey k p).MEM = s.MEM := rfl
@[simp] theorem setKey_engine (k : Key) (p : Bool) : (s.setKey k p).engine = s.engine := rfl
@[simp] theorem setKey_randInput (k : Key) (p : Bool) : (s.setKey k p).randInput = s.randInput := rfl
@[simp] theorem setKey_draws (k : Key) (p : Bool) : (s.setKey k p).draws = s.draws := rfl
@[simp] theorem setKey_reg (k : Key) (p : Bool) (r' : Reg) : (s.setKey k p).reg r' = s.reg r' := rfl
@[simp] theorem setKey_slot (k : Key) (p : Bool) (k' : Fin 16) : (s.setKey k p).slot k' = s.slot k' := rfl

/-! ### setDISP -/

@[simp] theorem setDISP_V (d : Display) : (s.setDISP d).V = s.V := rfl
@[simp] theorem setDISP_I (d : Display) : (s.setDISP d).I = s.I := rfl
@[simp] theorem setDISP_pc (d : Display) : (s.setDISP d).pc = s.pc := rfl
@[simp] theorem setDISP_SP (d : Display) : (s.setDISP d).SP = s.SP := rfl
@[simp] theorem setDISP_STACK (d : Display) : (s.setDISP d).STACK = s.STACK := rfl
@[simp] theorem setDISP_DT (d : Display) : (s.setDISP d).DT = s.DT := rfl
@[simp] theorem setDISP_ST (d : Display) : (s.setDISP d).ST = s.ST := rfl
@[simp] theorem setDISP_KEY (d : Display) : (s.setDISP d).KEY = s.KEY := rfl
@[simp] theorem setDISP_DISP (d : Display) : (s.setDISP d).DISP = d := rfl
@[simp] theorem setDISP_MEM (d : Display) : (s.setDISP d).MEM = s.MEM := rfl
@[simp] theorem setDISP_engine (d : Display) : (s.setDISP d).engine = s.engine := rfl
@[simp] theorem setDISP_randInput (d : Display) : (s.setDISP d).randInput = s.randInput := rfl
@[simp] theorem setDISP_draws (d : Display) : (s.setDISP d).draws = s.draws := rfl
@[simp] theorem setDISP_reg (d : Display) (r' : Reg) : (s.setDISP d).reg r' = s.reg r' := rfl
@[simp] theorem setDISP_slot (d : Display) (k' : Fin 16) : (s.setDISP d).slot k' = s.slot k' := rfl
@[simp] theorem setDISP_key (d : Display) (k' : Key) : (s.setDISP d).key k' = s.key k' := rfl

/-! ### setMEM -/

@[simp] theorem setMEM_V (m : Memory) : (s.setMEM m).V = s.V := rfl
@[simp] theorem setMEM_I (m : Memory) : (s.setMEM m).I = s.I := rfl
@[simp] theorem setMEM_pc (m : Memory) : (s.setMEM m).pc = s.pc := rfl
@[simp] theorem setMEM_SP (m : Memory) : (s.setMEM m).SP = s.SP := rfl
@[simp] theorem setMEM_STACK (m : Memory) : (s.setMEM m).STACK = s.STACK := rfl
@[simp] theorem setMEM_DT (m : Memory) : (s.setMEM m).DT = s.DT := rfl
@[simp] theorem setMEM_ST (m : Memory) : (s.setMEM m).ST = s.ST := rfl
@[simp] theorem setMEM_KEY (m : Memory) : (s.setMEM m).KEY = s.KEY := rfl
@[simp] theorem setMEM_DISP (m : Memory) : (s.setMEM m).DISP = s.DISP := rfl
@[simp] theorem setMEM_MEM (m : Memory) : (s.setMEM m).MEM = m := rfl
@[simp] theorem setMEM_engine (m : Memory) : (s.setMEM m).engine = s.engine := rfl
@[simp] theorem setMEM_randInput (m : Memory) : (s.setMEM m).randInput = s.randInput := rfl
@[simp] theorem setMEM_draws (m : Memory) : (s.setMEM m).draws = s.draws := rfl
@[simp] theorem setMEM_reg (m : Memory) (r' : Reg) : (s.setMEM m).reg r' = s.reg r' := rfl
@[simp] theorem setMEM_slot (m : Memory) (k' : Fin 16) : (s.setMEM m).slot k' = s.slot k' := rfl
@[simp] theorem setMEM_key (m : Memory) (k' : Key) : (s.setMEM m).key k' = s.key k' := rfl

/-! ### setEngine -/

@[simp] theorem setEngine_V (e : Engine) : (s.setEngine e).V = s.V := rfl
@[simp] theorem setEngine_I (e : Engine) : (s.setEngine e).I = s.I := rfl
@[simp] theorem setEngine_pc (e : Engine) : (s.setEngine e).pc = s.pc := rfl
@[simp] theorem setEngine_SP (e : Engine) : (s.setEngine e).SP = s.SP := rfl
@[simp] theorem setEngine_STACK (e : Engine) : (s.setEngine e).STACK = s.STACK := rfl
@[simp] theorem setEngine_DT (e : Engine) : (s.setEngine e).DT = s.DT := rfl
@[simp] theorem setEngine_ST (e : Engine) : (s.setEngine e).ST = s.ST := rfl
@[simp] theorem setEngine_KEY (e : Engine) : (s.setEngine e).KEY = s.KEY := rfl
@[simp] theorem setEngine_DISP (e : Engine) : (s.setEngine e).DISP = s.DISP := rfl
@[simp] theorem setEngine_MEM (e : Engine) : (s.setEngine e).MEM = s.MEM := rfl
@[simp] theorem setEngine_engine (e : Engine) : (s.setEngine e).engine = e := rfl
@[simp] theorem setEngine_randInput (e : Engine) : (s.setEngine e).randInput = s.randInput := rfl
@[simp] theorem setEngine_draws (e : Engine) : (s.setEngine e).draws = s.draws := rfl
@[simp] theorem setEngine_reg (e : Engine) (r' : Reg) : (s.setEngine e).reg r' = s.reg r' := rfl
@[simp] theorem setEngine_slot (e : Engine) (k' : Fin 16) : (s.setEngine e).slot k' = s.slot k' := rfl
@[simp] theorem setEngine_key (e : Engine) (k' : Key) : (s.setEngine e).key k' = s.key k' := rfl

/-! ### setRandInput -/

@[simp] theorem setRandInput_V (bs : List Byte) : (s.setRandInput bs).V = s.V := rfl
@[simp] theorem setRandInput_I (bs : List Byte) : (s.setRandInput bs).I = s.I := rfl
@[simp] theorem setRandInput_pc (bs : List Byte) : (s.setRandInput bs).pc = s.pc := rfl
@[simp] theorem setRandInput_SP (bs : List Byte) : (s.setRandInput bs).SP = s.SP := rfl
@[simp] theorem setRandInput_STACK (bs : List Byte) : (s.setRandInput bs).STACK = s.STACK := rfl
@[simp] theorem setRandInput_DT (bs : List Byte) : (s.setRandInput bs).DT = s.DT := rfl
@[simp] theorem setRandInput_ST (bs : List Byte) : (s.setRandInput bs).ST = s.ST := rfl
@[simp] theorem setRandInput_KEY (bs : List Byte) : (s.setRandInput bs).KEY = s.KEY := rfl
@[simp] theorem setRandInput_DISP (bs : List Byte) : (s.setRandInput bs).DISP = s.DISP := rfl
@[simp] theorem setRandInput_MEM (bs : List Byte) : (s.setRandInput bs).MEM = s.MEM := rfl
@[simp] theorem setRandInput_engine (bs : List Byte) : (s.setRandInput bs).engine = s.engine := rfl
@[simp] theorem setRandInput_randInput (bs : List Byte) : (s.setRandInput bs).randInput = bs := rfl
@[simp] theorem setRandInput_draws (bs : List Byte) : (s.setRandInput bs).draws = s.draws := rfl
@[simp] theorem setRandInput_reg (bs : List Byte) (r' : Reg) : (s.setRandInput bs).reg r' = s.reg r' := rfl
@[simp] theorem setRandInput_slot (bs : List Byte) (k' : Fin 16) : (s.setRandInput bs).slot k' = s.slot k' := rfl
@[simp] theorem setRandInput_key (bs : List Byte) (k' : Key) : (s.setRandInput bs).key k' = s.key k' := rfl

/-! ### setDraws -/

@[simp] theorem setDraws_V (n : Nat) : (s.setDraws n).V = s.V := rfl
@[simp] theorem setDraws_I (n : Nat) : (s.setDraws n).I = s.I := rfl
@[simp] theorem setDraws_pc (n : Nat) : (s.setDraws n).pc = s.pc := rfl
@[simp] theorem setDraws_SP (n : Nat) : (s.setDraws n).SP = s.SP := rfl
@[simp] theorem setDraws_STACK (n : Nat) : (s.setDraws n).STACK = s.STACK := rfl
@[simp] theorem setDraws_DT (n : Nat) : (s.setDraws n).DT = s.DT := rfl
@[simp] theorem setDraws_ST (n : Nat) : (s.setDraws n).ST = s.ST := rfl
@[simp] theorem setDraws_KEY (n : Nat) : (s.setDraws n).KEY = s.KEY := rfl
@[simp] theorem setDraws_DISP (n : Nat) : (s.setDraws n).DISP = s.DISP := rfl
@[simp] theorem setDraws_MEM (n : Nat) : (s.setDraws n).MEM = s.MEM := rfl
@[simp] theorem setDraws_engine (n : Nat) : (s.setDraws n).engine = s.engine := rfl
@[simp] theorem setDraws_randInput (n : Nat) : (s.setDraws n).randInput = s.randInput := rfl
@[simp] theorem setDraws_draws (n : Nat) : (s.setDraws n).draws = n := rfl
@[simp] theorem setDraws_reg (n : Nat) (r' : Reg) : (s.setDraws n).reg r' = s.reg r' := rfl
@[simp] theorem setDraws_slot (n : Nat) (k' : Fin 16) : (s.setDraws n).slot k' = s.slot k' := rfl
@[simp] theorem setDraws_key (n : Nat) (k' : Key) : (s.setDraws n).key k' = s.key k' := rfl

/-! ### Reads after writes of the indexed files -/

/-- Reading a register after a write to one. -/
@[simp] theorem setReg_reg (r r' : Reg) (v : Byte) : (s.setReg r v).reg r' = if r' = r then v else s.reg r' := by
  simp only [reg, setReg, Vector.getElem_set, Fin.ext_iff, eq_comm]

/-- Reading a call-stack slot after a write to one. -/
@[simp] theorem setSlot_slot (k k' : Fin 16) (a : Addr) :
    (s.setSlot k a).slot k' = if k' = k then a else s.slot k' := by
  simp only [slot, setSlot, Vector.getElem_set, Fin.ext_iff, eq_comm]

/-- Reading a key after a write to one. -/
@[simp] theorem setKey_key (k k' : Key) (p : Bool) : (s.setKey k p).key k' = if k' = k then p else s.key k' := by
  simp only [key, setKey, Vector.getElem_set, Fin.ext_iff, eq_comm]

/-- Two register files with equal reads are equal. -/
theorem V_ext {s t : State} (h : ∀ r : Reg, s.reg r = t.reg r) : s.V = t.V :=
  Vector.ext fun i hi => h ⟨i, hi⟩

/-- Two call stacks with equal slots are equal. -/
theorem STACK_ext {s t : State} (h : ∀ k : Fin 16, s.slot k = t.slot k) : s.STACK = t.STACK :=
  Vector.ext fun i hi => h ⟨i, hi⟩

end Sys2Proof.Machine.State
end

