-- ==== Sys2Proof/Laws/Display.lean ====
section
/-! SUPPORT. The laws of the display: one pixel toggled, one sprite row, a whole sprite. The drawing loop meets each
pixel at most once (48_display.md R126), so it is the pointwise XOR with the sprite. -/

namespace Sys2Proof.Machine

/-- Two displays with equal pixels are equal. -/
theorem Display.ext_pixel {d e : Display} (h : ∀ col row, d.pixel col row = e.pixel col row) : d = e :=
  Vector.ext fun i hi => Vector.ext fun j hj => h ⟨j, hj⟩ ⟨i, hi⟩

/-- One pixel inverted, every other left alone. -/
@[simp] theorem Display.pixel_toggle (d : Display) (c c' : Fin 64) (r r' : Fin 32) :
    (d.toggle c r).pixel c' r' = if c' = c ∧ r' = r then !d.pixel c r else d.pixel c' r' := by
  simp only [Display.toggle, Display.pixel, Vector.getElem_set]
  by_cases hr : r' = r
  · subst hr
    by_cases hc : c' = c
    · subst hc; simp
    · have : ¬ c.val = c'.val := fun e => hc (Fin.ext e.symm)
      simp [hc, this]
  · have : ¬ r.val = r'.val := fun e => hr (Fin.ext e.symm)
    simp [hr, this]

@[simp] theorem Display.pixel_blank (c : Fin 64) (r : Fin 32) : Display.blank.pixel c r = false := by
  simp [Display.blank, Display.pixel]

/-- Sprite columns less than 64 apart land on different display columns. -/
theorem colMod_inj {x c d : Nat} (hc : c < 64) (hd : d < 64) (h : colMod (x + c) = colMod (x + d)) : c = d := by
  simp only [colMod, Fin.mk.injEq] at h; omega

/-- Sprite rows less than 32 apart land on different display rows. -/
theorem rowMod_inj {y r q : Nat} (hr : r < 32) (hq : q < 32) (h : rowMod (y + r) = rowMod (y + q)) : r = q := by
  simp only [rowMod, Fin.mk.injEq] at h; omega

/-- The columns of one sprite row, all different modulo 64: the pixel under column `c` is inverted exactly when the
sprite bit is set, every other pixel is left alone, and a collision is found exactly when a set bit meets a set pixel. -/
theorem Drawing.rowBits_spec (b : Byte) (x0 r : Nat) (cols : List Nat) (g : Drawing)
    (hc : ∀ c ∈ cols, c < 8) (hn : cols.Nodup) :
    (∀ c ∈ cols, (Drawing.rowBits b x0 r cols g).disp.pixel (colMod (x0 + c)) (rowMod r) =
      (g.disp.pixel (colMod (x0 + c)) (rowMod r) ^^ b.getLsbD (7 - c))) ∧
    (∀ c' r', (∀ c ∈ cols, c' = colMod (x0 + c) → r' ≠ rowMod r) →
      (Drawing.rowBits b x0 r cols g).disp.pixel c' r' = g.disp.pixel c' r') ∧
    ((Drawing.rowBits b x0 r cols g).collision = true ↔
      g.collision = true ∨ ∃ c ∈ cols, b.getLsbD (7 - c) = true ∧
        g.disp.pixel (colMod (x0 + c)) (rowMod r) = true) := by
  induction cols generalizing g with
  | nil => simp [Drawing.rowBits]
  | cons c cols ih =>
    obtain ⟨hnc, hn'⟩ := List.nodup_cons.mp hn
    have hc0 : c < 8 := hc c List.mem_cons_self
    have hne : ∀ d ∈ cols, colMod (x0 + d) ≠ colMod (x0 + c) := fun d hd e => by
      have hd8 := hc d (List.mem_cons_of_mem _ hd)
      exact hnc (colMod_inj (by omega) (by omega) e ▸ hd)
    have hplot : ∀ c' r', (if b.getLsbD (7 - c) = true then g.plot (x0 + c) r else g).disp.pixel c' r' =
        if c' = colMod (x0 + c) ∧ r' = rowMod r then (g.disp.pixel c' r' ^^ b.getLsbD (7 - c))
        else g.disp.pixel c' r' := fun c' r' => by
      by_cases hb : b.getLsbD (7 - c) = true
      · by_cases hp : c' = colMod (x0 + c) ∧ r' = rowMod r
        · obtain ⟨rfl, rfl⟩ := hp; simp [hb, Drawing.plot]
        · simp [hb, Drawing.plot, hp]
      · simp [hb]
    have hcol : (if b.getLsbD (7 - c) = true then g.plot (x0 + c) r else g).collision = true ↔
        g.collision = true ∨ (b.getLsbD (7 - c) = true ∧ g.disp.pixel (colMod (x0 + c)) (rowMod r) = true) := by
      by_cases hb : b.getLsbD (7 - c) = true <;> simp [hb, Drawing.plot]
    simp only [Drawing.rowBits]
    obtain ⟨ih1, ih2, ih3⟩ := ih (if b.getLsbD (7 - c) = true then g.plot (x0 + c) r else g)
      (fun d hd => hc d (List.mem_cons_of_mem _ hd)) hn'
    refine ⟨fun d hd => ?_, fun c' r' hout => ?_, ?_⟩
    · rcases List.mem_cons.mp hd with rfl | hd
      · rw [ih2 _ _ fun e he h => absurd h.symm (hne e he), hplot, if_pos ⟨rfl, rfl⟩]
      · rw [ih1 d hd, hplot, if_neg fun h => hne d hd h.1]
    · rw [ih2 _ _ fun e he => hout e (List.mem_cons_of_mem _ he), hplot,
        if_neg fun h => hout c List.mem_cons_self h.1 h.2]
    · rw [ih3, hcol, or_assoc]
      simp only [List.mem_cons, exists_eq_or_imp]
      refine or_congr_right (or_congr_right (exists_congr fun d => and_congr_right fun hd => and_congr_right fun _ => ?_))
      rw [hplot, if_neg fun h => hne d hd h.1]

/-- A whole sprite of at most 32 rows drawn from row `y` on: the pixel under each sprite bit is inverted exactly when the
bit is set, every other pixel is left alone, and a collision is found exactly when a set bit meets a set pixel. -/
theorem Drawing.rows_spec (x0 y : Nat) (bs : List Byte) (g : Drawing) (hlen : bs.length ≤ 32) :
    (∀ r c, r < bs.length → c < 8 → (Drawing.rows x0 y bs g).disp.pixel (colMod (x0 + c)) (rowMod (y + r)) =
      (g.disp.pixel (colMod (x0 + c)) (rowMod (y + r)) ^^ (bs.getD r 0).getLsbD (7 - c))) ∧
    (∀ c' r', (∀ r c, r < bs.length → c < 8 → c' = colMod (x0 + c) → r' ≠ rowMod (y + r)) →
      (Drawing.rows x0 y bs g).disp.pixel c' r' = g.disp.pixel c' r') ∧
    ((Drawing.rows x0 y bs g).collision = true ↔
      g.collision = true ∨ ∃ r c, r < bs.length ∧ c < 8 ∧ (bs.getD r 0).getLsbD (7 - c) = true ∧
        g.disp.pixel (colMod (x0 + c)) (rowMod (y + r)) = true) := by
  induction bs generalizing y g with
  | nil => simp [Drawing.rows]
  | cons b bs ih =>
    simp only [List.length_cons] at hlen
    have hcols : ∀ c, c < 8 ↔ c ∈ [0, 1, 2, 3, 4, 5, 6, 7] := fun c => by
      simp only [List.mem_cons, List.not_mem_nil, or_false]; omega
    obtain ⟨h1, h2, h3⟩ := Drawing.rowBits_spec b x0 y [0, 1, 2, 3, 4, 5, 6, 7] g
      (fun c hc => (hcols c).mpr hc) (by decide)
    simp only [Drawing.rows]
    obtain ⟨ih1, ih2, ih3⟩ := ih (y + 1) (Drawing.rowBits b x0 y [0, 1, 2, 3, 4, 5, 6, 7] g) (by omega)
    have hrow : ∀ r, r < bs.length → rowMod (y + (r + 1)) ≠ rowMod y := fun r hr e => by
      have := rowMod_inj (y := y) (r := r + 1) (q := 0) (by omega) (by omega) e
      omega
    have hy : ∀ r, y + (r + 1) = y + 1 + r := fun r => by omega
    have hkeep : ∀ r c', r < bs.length → (Drawing.rowBits b x0 y [0, 1, 2, 3, 4, 5, 6, 7] g).disp.pixel c'
        (rowMod (y + 1 + r)) = g.disp.pixel c' (rowMod (y + 1 + r)) := fun r c' hr =>
      h2 _ _ fun _ _ _ => hy r ▸ hrow r hr
    refine ⟨fun r c hr hc => ?_, fun c' r' hout => ?_, ?_⟩
    · cases r with
      | zero =>
        rw [ih2 _ _ fun r c hr _ _ e => hrow r hr (by rw [hy r, ← e]; rfl)]
        exact h1 c ((hcols c).mp hc)
      | succ r =>
        simp only [List.length_cons, Nat.add_lt_add_iff_right] at hr
        rw [hy r, ih1 r c hr hc, hkeep r _ hr, List.getD_cons_succ]
    · rw [ih2 _ _ fun r c hr hc e => hy r ▸ hout (r + 1) c (by simpa using hr) hc e,
        h2 _ _ fun c hc e => hout 0 c (by simp) ((hcols c).mpr hc) e]
    · rw [ih3, h3, or_assoc]
      refine or_congr_right ⟨?_, ?_⟩
      · rintro (⟨c, hc, hb, hp⟩ | ⟨r, c, hr, hc, hb, hp⟩)
        · exact ⟨0, c, by simp, (hcols c).mpr hc, hb, hp⟩
        · exact ⟨r + 1, c, by simpa using hr, hc, by simpa using hb, by rw [hy r, ← hkeep r _ hr]; exact hp⟩
      · rintro ⟨r, c, hr, hc, hb, hp⟩
        cases r with
        | zero => exact .inl ⟨c, (hcols c).mp hc, hb, hp⟩
        | succ r =>
          simp only [List.length_cons, Nat.add_lt_add_iff_right] at hr
          exact .inr ⟨r, c, hr, hc, by simpa using hb, by rw [hkeep r _ hr, ← hy r]; exact hp⟩

/-- The drawing of DXYN, said once: the pixel under each sprite bit is inverted exactly when the bit is set, every other
pixel is left alone, and a collision is found exactly when a set bit meets a set pixel (R126, R127). -/
theorem State.drawing_spec (s : State) (x y : Reg) (n : Nat) (hn : n < 16) :
    (∀ r c, r < n → c < 8 →
      (s.drawing x y n).disp.pixel (colMod ((s.reg x).toNat + c)) (rowMod ((s.reg y).toNat + r)) =
        (s.DISP.pixel (colMod ((s.reg x).toNat + c)) (rowMod ((s.reg y).toNat + r)) ^^
          (s.MEM.read (s.indexAddr + r)).getLsbD (7 - c))) ∧
    (∀ col row, (∀ r c, r < n → c < 8 → col = colMod ((s.reg x).toNat + c) → row ≠ rowMod ((s.reg y).toNat + r)) →
      (s.drawing x y n).disp.pixel col row = s.DISP.pixel col row) ∧
    ((s.drawing x y n).collision = true ↔ ∃ r c, r < n ∧ c < 8 ∧
      (s.MEM.read (s.indexAddr + r)).getLsbD (7 - c) = true ∧
      s.DISP.pixel (colMod ((s.reg x).toNat + c)) (rowMod ((s.reg y).toNat + r)) = true) := by
  obtain ⟨h1, h2, h3⟩ := Drawing.rows_spec (s.reg x).toNat (s.reg y).toNat (s.MEM.readBytes s.I.toNat n) ⟨s.DISP, false⟩
    (by rw [Memory.length_readBytes]; omega)
  simp only [Memory.length_readBytes] at h1 h2 h3
  refine ⟨fun r c hr hc => ?_, h2, ?_⟩
  · rw [State.indexAddr, ← Memory.getD_readBytes _ _ _ _ hr]; exact h1 r c hr hc
  · rw [State.drawing, State.indexAddr, h3]
    simp only [Bool.false_eq_true, false_or]
    refine exists_congr fun r => exists_congr fun c => and_congr_right fun hr => ?_
    rw [Memory.getD_readBytes _ _ _ _ hr]

end Sys2Proof.Machine
end

