-- ==== Sys2Proof/Laws/Ops.lean ====
section
/-! SUPPORT. One lemma for each shared operation that says once what it does; later proofs cite these and do not unfold
the operations. -/

namespace Sys2Proof.Machine

/-! ### Errors and range checks -/

/-- `raise` changes only the engine (60_exceptions.md R137). -/
@[simp] theorem State.raise_eq (s : State) (kind : ErrorKind) :
    s.raise kind = s.setEngine (.faulted ⟨kind, s.pc - 2⟩) := rfl

@[simp] theorem State.enterFaulted_eq (s : State) (kind : ErrorKind) (a : Addr) :
    s.enterFaulted kind a = s.setEngine (.faulted ⟨kind, a⟩) := rfl

/-- A range inside memory passes the check. -/
theorem checkRange_inside {lo hi : Nat} (h : hi < 4096) : checkRange lo hi = none := by
  simp [checkRange, Config.memSize, h]

/-- A range that leaves memory is reported at its lowest address outside. -/
theorem checkRange_outside {lo hi : Nat} (h : 4096 ≤ hi) : checkRange lo hi = some (max lo 4096) := by
  simp [checkRange, Config.memSize, h]

/-- An access of `len` bytes inside memory goes on. -/
theorem State.accessing_inside {s done : State} {a len : Nat} (h : a + len ≤ 4096) :
    s.accessing a len done = .next done := by
  rw [State.accessing, checkRange_inside (by omega)]

/-- An access of `len` bytes that leaves memory raises MemoryFault at the lowest address outside. -/
theorem State.accessing_outside {s done : State} {a len : Nat} (h : 4096 < a + len) :
    s.accessing a len done = .next (s.setEngine (.faulted ⟨.memoryFault (max a 4096), s.pc - 2⟩)) := by
  rw [State.accessing, checkRange_outside (by omega)]; rfl

/-! ### Skips, results with flags -/

theorem State.advance_eq (s : State) : s.advance = s.setPc (s.pc + 2) := rfl

theorem State.skipIf_eq (s : State) (c : Bool) : s.skipIf c = s.setPc (if c then s.pc + 2 else s.pc) := by
  cases c <;> rfl

/-- A result and then a flag: the flag wins in VF (42_register_ops.md R90). -/
@[simp] theorem State.setResultAndFlag_reg (s : State) (x r : Reg) (v f : Byte) :
    (s.setResultAndFlag x v f).reg r = if r = VF then f else if r = x then v else s.reg r := by
  simp [State.setResultAndFlag]

theorem State.setReg_eq (s : State) (r : Reg) (v : Byte) :
    s.setReg r v = { s with V := (s.setReg r v).V } := rfl

theorem State.setResultAndFlag_eq (s : State) (x : Reg) (v f : Byte) :
    s.setResultAndFlag x v f = { s with V := (s.setResultAndFlag x v f).V } := rfl

@[simp] theorem boolByte_eq_one (c : Bool) : boolByte c = 1 ↔ c = true := by cases c <;> decide

@[simp] theorem boolByte_eq_zero (c : Bool) : boolByte c = 0 ↔ c = false := by cases c <;> decide

/-! ### The block of registers -/

@[simp] theorem State.length_regsUpTo (s : State) (x : Reg) : (s.regsUpTo x).length = x.val + 1 := by
  simp [State.regsUpTo]

/-- The `k`-th byte FX55 stores is register `k`. -/
theorem State.getD_regsUpTo (s : State) (x k : Reg) (h : k.val ≤ x.val) : (s.regsUpTo x).getD k.val 0 = s.reg k := by
  have hk : k.val < (s.regsUpTo x).length := by simp; omega
  rw [List.getD_eq_getElem _ _ hk]
  simp [State.regsUpTo, State.reg]

/-- Loading registers changes only V. -/
theorem State.loadRegs_eq (s : State) (k : Nat) (bs : List Byte) :
    s.loadRegs k bs = { s with V := (s.loadRegs k bs).V } := by
  induction bs generalizing s k with
  | nil => rfl
  | cons b bs ih => simp only [State.loadRegs]; rw [ih]; rfl

/-- Register `r` after loading bytes from register `k` on. -/
theorem State.loadRegs_reg (s : State) (k : Nat) (bs : List Byte) (h : k + bs.length ≤ 16) (r : Reg) :
    (s.loadRegs k bs).reg r = if k ≤ r.val ∧ r.val < k + bs.length then bs.getD (r.val - k) 0 else s.reg r := by
  induction bs generalizing s k with
  | nil => rw [if_neg (by simp only [List.length_nil]; omega)]; rfl
  | cons b bs ih =>
    simp only [List.length_cons] at h
    simp only [State.loadRegs, ih _ _ (by omega : k + 1 + bs.length ≤ 16), State.setReg_reg, List.length_cons]
    have hk : (nibble k).val = k := by simp only [nibble]; omega
    by_cases hr : r = nibble k
    · have hv : r.val = k := by rw [hr, hk]
      rw [if_neg (by omega), if_pos hr, if_pos (by omega)]
      simp [hv]
    · have hv : r.val ≠ k := fun e => hr (Fin.ext (by rw [hk, e]))
      by_cases h2 : k + 1 ≤ r.val ∧ r.val < k + 1 + bs.length
      · rw [if_pos h2, if_pos (by omega), show r.val - k = (r.val - (k + 1)) + 1 by omega, List.getD_cons_succ]
      · rw [if_neg h2, if_neg hr, if_neg (by omega)]

theorem State.blockAdvance_unchanged (x : Reg) (s : State) : s.blockAdvance .unchanged x = s := rfl

/-! ### The call stack -/

/-- A push below depth 16 (10_state.md R25, R26). -/
theorem State.push_eq (s : State) (a : Addr) :
    s.push a = (s.setSlot (nibble s.SP.toNat) a).setSP (s.SP + 1) := rfl

/-! ### The random source -/

theorem State.drawByte_cons {s : State} {b : Byte} {bs : List Byte} (h : s.randInput = b :: bs) :
    s.drawByte = (b, s.setRandInput bs) := by simp [State.drawByte, h]

theorem State.drawByte_nil {s : State} (h : s.randInput = []) :
    s.drawByte = (Config.randomByte s.draws, s.setDraws (s.draws + 1)) := by simp [State.drawByte, h]

/-- A draw leaves every field of the spec's state alone. -/
theorem State.drawByte_state (s : State) :
    s.drawByte.2 = { s with randInput := s.drawByte.2.randInput, draws := s.drawByte.2.draws } := by
  cases h : s.randInput with
  | nil => rw [State.drawByte_nil h]; rfl
  | cons b bs => rw [State.drawByte_cons h]; rfl

/-! ### Fetch and the wait step -/

/-- A fetch at 0xFFE or below reads the big-endian word (40_cycle.md R65). -/
theorem State.fetch_inside {s : State} (h : s.pc.toNat + 1 < 4096) :
    s.fetch = .ok (bigEndian (s.MEM.read s.pc.toNat) (s.MEM.read (s.pc.toNat + 1))) := by
  simp only [State.fetch, Memory.memRead, Config.memSize]
  rw [if_neg (by omega), if_neg (by omega)]

/-- A fetch at 0xFFF or above fails at the first byte outside memory (R66). -/
theorem State.fetch_outside {s : State} (h : 4096 ≤ s.pc.toNat + 1) :
    s.fetch = .error (.memoryFault (max s.pc.toNat 4096)) := by
  simp only [State.fetch, Memory.memRead, Config.memSize]
  by_cases h2 : 4096 ≤ s.pc.toNat
  · rw [if_pos h2]; simp [Nat.max_eq_left h2]
  · rw [if_neg h2, if_pos h]
    simp only [Except.error.injEq, ErrorKind.memoryFault.injEq]; omega

/-- The wait takes key `k` when it is pressed and no lower one is (47_input.md R123). -/
theorem State.leastPressed_some {s : State} {k : Key} (h : s.key k = true) (hl : ∀ j : Key, j < k → s.key j = false) :
    s.leastPressed = some k.val := by
  rw [State.leastPressed, List.findIdx?_eq_some_iff_getElem]
  refine ⟨by simp, by simpa [State.key] using h, fun j hj => ?_⟩
  have := hl ⟨j, by omega⟩ (by simpa [Fin.lt_def] using hj)
  simpa [State.key] using this

/-- With no key pressed there is none to take. -/
theorem State.leastPressed_none {s : State} (h : ∀ k : Key, s.key k = false) : s.leastPressed = none := by
  rw [State.leastPressed, List.findIdx?_eq_none_iff]
  intro b hb
  obtain ⟨i, hi, rfl⟩ := List.getElem_of_mem hb
  have := h ⟨i, by simpa using hi⟩
  simpa [State.key] using this

/-- The two ways the key lookup can end. -/
theorem State.leastPressed_cases (s : State) :
    (s.leastPressed = none ∧ ∀ k : Key, s.key k = false) ∨
      ∃ k : Key, s.leastPressed = some k.val ∧ s.key k = true ∧ ∀ j : Key, j < k → s.key j = false := by
  by_cases h : ∀ k : Key, s.key k = false
  · exact .inl ⟨State.leastPressed_none h, h⟩
  · right
    have hex : ∃ n : Nat, ∃ hn : n < 16, s.key ⟨n, hn⟩ = true := by
      obtain ⟨k, hk⟩ := not_forall.mp h
      exact ⟨k.val, k.isLt, by simpa using hk⟩
    obtain ⟨hn, hk⟩ := Nat.find_spec hex
    have hl : ∀ j : Key, j < ⟨Nat.find hex, hn⟩ → s.key j = false := fun j hj => by
      have := Nat.find_min hex (m := j.val) hj
      simpa using fun hj' => this ⟨j.isLt, hj'⟩
    exact ⟨⟨Nat.find hex, hn⟩, State.leastPressed_some hk hl, hk, hl⟩

/-- What the wait step does (R123). -/
theorem waitStep_some {s : State} {r : Reg} {k : Key} (h : s.key k = true)
    (hl : ∀ j : Key, j < k → s.key j = false) :
    waitStep r s = (s.setReg r (BitVec.ofNat 8 k.val)).setEngine .running := by
  rw [waitStep, State.leastPressed_some h hl]

theorem waitStep_none {s : State} {r : Reg} (h : ∀ k : Key, s.key k = false) : waitStep r s = s := by
  rw [waitStep, State.leastPressed_none h]

/-! ### The host's timer tick -/

/-- One tick of one timer: one less, never below 0 (46_timers.md R115). -/
theorem toNat_tickTimer (t : Byte) : (tickTimer t).toNat = t.toNat - 1 := by
  unfold tickTimer
  split
  · simp only [BitVec.toNat_ofNat]; omega
  · omega

/-- `tick_timers` changes only the timers (R115). -/
theorem State.tickTimers_eq (s : State) : s.tickTimers = { s with DT := tickTimer s.DT, ST := tickTimer s.ST } := rfl

end Sys2Proof.Machine
end

