-- ==== Sys2Proof/Laws/Step.lean ====
section
/-! SUPPORT. The step, said once: what it does in each engine state and for each outcome of the fetch and the decoder
(40_cycle.md R64 to R70; 47_input.md R123), the ways it can end, and the engine after an instruction. -/

namespace Sys2Proof

/-- An Unknown word carries itself (30_encoding.md R55). -/
theorem decode_unknown_eq {w u : Word} (h : decode w = .unknown u) : u = w := by
  unfold decode decode0 decode5 decode8 decode9 decodeE decodeF at h
  repeat' split at h
  all_goals cases h
  all_goals rfl

namespace Machine

/-- The word at `pc`, where both its bytes are memory. -/
def State.wordAtPc (s : State) : Word := bigEndian (s.MEM.read s.pc.toNat) (s.MEM.read (s.pc.toNat + 1))

theorem toNat_bigEndian (hi lo : Byte) : (bigEndian hi lo).toNat = 256 * hi.toNat + lo.toNat := by
  rw [bigEndian, BitVec.toNat_append, ← Nat.shiftLeft_add_eq_or_of_lt lo.isLt, Nat.shiftLeft_eq]; omega

theorem step_of_faulted {s : State} {e : ErrorRecord} (h : s.engine = .faulted e) : step s = .next s := by
  rw [step, h]

theorem step_of_waiting {s : State} {r : Reg} (h : s.engine = .waitingForKey r) : step s = .next (waitStep r s) := by
  rw [step, h]

/-- A wait step with key `k` the least one pressed. -/
theorem step_of_pressed {s : State} {r : Reg} {k : Key} (h : s.engine = .waitingForKey r) (hk : s.key k = true)
    (hl : ∀ j : Key, j < k → s.key j = false) :
    step s = .next ((s.setReg r (BitVec.ofNat 8 k.val)).setEngine .running) := by
  rw [step_of_waiting h, waitStep_some hk hl]

theorem step_of_none_pressed {s : State} {r : Reg} (h : s.engine = .waitingForKey r) (hk : ∀ k : Key, s.key k = false) :
    step s = .next s := by
  rw [step_of_waiting h, waitStep_none hk]

/-- A running step whose word decodes to an instruction. -/
theorem step_of_instr {s : State} {i : Instr} (h : s.engine = .running) (hp : s.pc.toNat + 1 < 4096)
    (hd : decode s.wordAtPc = .instr i) : step s = exec i (s.setPc (s.pc + 2)) := by
  rw [step, h]
  simp only [cycle, State.fetch_inside hp]
  rw [State.wordAtPc] at hd
  rw [hd]; rfl

/-- A running step whose word decodes to Unknown. -/
theorem step_of_unknown {s : State} {u : Word} (h : s.engine = .running) (hp : s.pc.toNat + 1 < 4096)
    (hd : decode s.wordAtPc = .unknown u) :
    step s = .next { s with pc := s.pc + 2, engine := .faulted ⟨.unknownOpcode s.wordAtPc, s.pc⟩ } := by
  rw [step, h]
  simp only [cycle, State.fetch_inside hp]
  rw [decode_unknown_eq hd] at hd
  rw [State.wordAtPc] at hd ⊢
  rw [hd]
  simp [execUnknown, State.advance_eq, State.setEngine, State.setPc]

/-- A running step whose fetch leaves memory. -/
theorem step_of_fetch_outside {s : State} (h : s.engine = .running) (hp : 4096 ≤ s.pc.toNat + 1) :
    step s = .next (s.setEngine (.faulted ⟨.memoryFault (max s.pc.toNat 4096), s.pc⟩)) := by
  rw [step, h]
  simp only [cycle, State.fetch_outside hp]; rfl

/-- The ways a step can end in a next state. -/
theorem step_cases {s t : State} (h : step s = .next t) :
    (∃ e, s.engine = .faulted e ∧ t = s) ∨
    (∃ r, s.engine = .waitingForKey r ∧ t = waitStep r s) ∨
    (s.engine = .running ∧ 4096 ≤ s.pc.toNat + 1 ∧
      t = s.setEngine (.faulted ⟨.memoryFault (max s.pc.toNat 4096), s.pc⟩)) ∨
    (s.engine = .running ∧ s.pc.toNat + 1 < 4096 ∧ decode s.wordAtPc = .unknown s.wordAtPc ∧
      t = { s with pc := s.pc + 2, engine := .faulted ⟨.unknownOpcode s.wordAtPc, s.pc⟩ }) ∨
    ∃ i, s.engine = .running ∧ s.pc.toNat + 1 < 4096 ∧ decode s.wordAtPc = .instr i ∧
      exec i (s.setPc (s.pc + 2)) = .next t := by
  rcases he : s.engine with _ | r | e
  · by_cases hp : s.pc.toNat + 1 < 4096
    · rcases hd : decode s.wordAtPc with i | u
      · exact .inr (.inr (.inr (.inr ⟨i, rfl, hp, rfl, by rw [← step_of_instr he hp hd]; exact h⟩)))
      · have hu := decode_unknown_eq hd
        rw [step_of_unknown he hp hd] at h
        exact .inr (.inr (.inr (.inl ⟨rfl, hp, by rw [hu], by cases h; rfl⟩)))
    · rw [step_of_fetch_outside he (by omega)] at h
      exact .inr (.inr (.inl ⟨rfl, by omega, by cases h; rfl⟩))
  · rw [step_of_waiting he] at h
    exact .inr (.inl ⟨r, rfl, by cases h; rfl⟩)
  · rw [step_of_faulted he] at h
    exact .inl ⟨e, rfl, by cases h; rfl⟩

/-- An access raises MemoryFault and does nothing else, or completes. -/
theorem State.accessing_cases {s done t : State} {a len : Nat} (h : s.accessing a len done = .next t) :
    (a + len ≤ 4096 ∧ t = done) ∨
      (4096 < a + len ∧ t = s.setEngine (.faulted ⟨.memoryFault (max a 4096), s.pc - 2⟩)) := by
  by_cases hi : a + len ≤ 4096
  · rw [State.accessing_inside hi] at h; cases h; exact .inl ⟨hi, rfl⟩
  · rw [State.accessing_outside (by omega)] at h; cases h; exact .inr ⟨by omega, rfl⟩

/-- DXYN with its sprite inside memory, or with no rows. -/
theorem exec_drw_inside {x y : Reg} {n : Nat} {s : State} (h : n = 0 ∨ s.indexAddr + n ≤ 4096) :
    exec (.drwVxVyNibble x y n) s = .next (s.drawn x y n) := by
  simp only [exec, execDrwVxVyNibble]
  split
  · next h0 => rw [h0]
  · rw [State.accessing_inside (by omega)]

/-- `raise` after the default advance records the address fetched from (log entry 7). -/
theorem State.raise_advanced (s : State) (kind : ErrorKind) :
    (s.setPc (s.pc + 2)).raise kind = { s with pc := s.pc + 2, engine := .faulted ⟨kind, s.pc⟩ } := by
  simp [State.setPc, State.setEngine]

/-- FX55 and FX65 leave `I` alone, the value this spec takes for MEM_BLOCK_I_MODE (log entry 1). -/
theorem storeRegs_eq (x : Reg) (s : State) :
    storeRegsWith Params.memBlockIMode x s = s.setMEM (s.MEM.writeBytes s.I.toNat (s.regsUpTo x)) := rfl

theorem loadRegs_params_eq (x : Reg) (s : State) :
    loadRegsWith Params.memBlockIMode x s = s.loadRegs 0 (s.MEM.readBytes s.I.toNat (x.val + 1)) := rfl

/-- FX1E leaves VF alone, the value this spec takes for I_ADD_SETS_VF (log entry 1). -/
theorem addI_eq (x : Reg) (s : State) :
    addIWith Params.iAddSetsVF x s = s.setI (BitVec.ofNat 16 (s.I.toNat + (s.reg x).toNat)) := rfl

/-- The engine after an instruction: as before, faulted with nothing else changed, or waiting after FX0A. -/
theorem exec_engine_cases {i : Instr} {s t : State} (h : exec i s = .next t) :
    t.engine = s.engine ∨ (∃ kind, t = s.raise kind) ∨ ∃ x, i = .ldVxK x ∧ t = s.setEngine (.waitingForKey x) := by
  cases i
  case ret =>
    simp only [exec, execRet] at h
    split at h
    · cases h; exact .inr (.inl ⟨_, rfl⟩)
    · split at h <;> cases h; exact .inl rfl
  case callAddr a =>
    simp only [exec, execCallAddr] at h
    split at h
    · cases h; exact .inr (.inl ⟨_, rfl⟩)
    · split at h <;> cases h; exact .inl rfl
  case drwVxVyNibble x y n =>
    simp only [exec, execDrwVxVyNibble] at h
    split at h
    · cases h; exact .inl rfl
    · rcases State.accessing_cases h with ⟨-, rfl⟩ | ⟨-, rfl⟩
      · exact .inl rfl
      · exact .inr (.inl ⟨_, rfl⟩)
  case ldBVx x =>
    rcases State.accessing_cases h with ⟨-, rfl⟩ | ⟨-, rfl⟩
    · exact .inl rfl
    · exact .inr (.inl ⟨_, rfl⟩)
  case ldMemVx x =>
    rcases State.accessing_cases h with ⟨-, rfl⟩ | ⟨-, rfl⟩
    · exact .inl rfl
    · exact .inr (.inl ⟨_, rfl⟩)
  case ldVxMem x =>
    rcases State.accessing_cases h with ⟨-, rfl⟩ | ⟨-, rfl⟩
    · rw [loadRegs_params_eq, State.loadRegs_eq]; exact .inl rfl
    · exact .inr (.inl ⟨_, rfl⟩)
  case rndVxByte x nn =>
    cases h; rw [State.setReg_engine, State.drawByte_state]; exact .inl rfl
  case ldVxK x => cases h; exact .inr (.inr ⟨x, rfl, rfl⟩)
  case seVxByte => cases h; rw [State.skipIf_eq]; exact .inl rfl
  case sneVxByte => cases h; rw [State.skipIf_eq]; exact .inl rfl
  case seVxVy => cases h; rw [State.skipIf_eq]; exact .inl rfl
  case sneVxVy => cases h; rw [State.skipIf_eq]; exact .inl rfl
  case skpVx => cases h; rw [State.skipIf_eq]; exact .inl rfl
  case sknpVx => cases h; rw [State.skipIf_eq]; exact .inl rfl
  all_goals cases h; exact .inl rfl

end Machine

end Sys2Proof
end

