-- ==== Sys2Proof/Laws/HostOps.lean ====
section
/-! SUPPORT. The host's operations, said once: what each does, and the ways one can end in a next state (40_cycle.md R63;
70_reset_and_hazards.md R148 to R150). -/

namespace Sys2Proof.Machine

@[simp] theorem Session.withMachine_machine (h : Session) (s : State) : (h.withMachine s).machine = s := rfl

@[simp] theorem Session.withMachine_phase (h : Session) (s : State) : (h.withMachine s).phase = h.phase := rfl

/-- A ROM that fits is written at the program base (R148). -/
theorem State.load_fits {s : State} {bytes : List Byte} (hl : bytes.length ≤ 4096 - 0x200) :
    s.load bytes = .ok (s.setMEM (s.MEM.writeBytes 0x200 bytes)) := by
  rw [State.load, if_neg (by simp only [Config.maxRomLen]; omega)]

/-- A ROM that does not fit changes nothing (R150). -/
theorem State.load_too_large {s : State} {bytes : List Byte} (hl : 4096 - 0x200 < bytes.length) :
    s.load bytes = .error .romTooLarge := by
  rw [State.load, if_pos (by simp only [Config.maxRomLen]; omega)]

/-- The first load, of a ROM that fits. -/
theorem hostStep_load_fits {h : Session} {bytes : List Byte} (hp : h.phase = .created)
    (hl : bytes.length ≤ 4096 - 0x200) :
    hostStep (.load bytes) h = .next (⟨h.machine.setMEM (h.machine.MEM.writeBytes 0x200 bytes), .loaded⟩, .done) := by
  simp only [hostStep, Session.load, hp, State.load_fits hl]

/-- The first load, of a ROM that does not fit: the host may load again. -/
theorem hostStep_load_too_large {h : Session} {bytes : List Byte} (hp : h.phase = .created)
    (hl : 4096 - 0x200 < bytes.length) :
    hostStep (.load bytes) h = .next (h, .loadError .romTooLarge) := by
  simp only [hostStep, Session.load, hp, State.load_too_large hl]

/-- Any further load is refused (R149). -/
theorem hostStep_load_refused {h : Session} {bytes : List Byte} (hp : h.phase ≠ .created) :
    hostStep (.load bytes) h = .refused .loadOutOfOrder := by
  rcases hph : h.phase with _ | _ | _
  · exact absurd hph hp
  · simp only [hostStep, Session.load, hph]
  · simp only [hostStep, Session.load, hph]

/-- A step with the host's byte is a step of the core with that byte at hand. -/
theorem stepWith_next {rand : Byte} {s t : State} (h : step (s.setRandInput [rand]) = .next t) :
    stepWith rand s = .next (t.setRandInput s.randInput) := by
  rw [stepWith, h]

theorem stepWith_cases {rand : Byte} {s u : State} (h : stepWith rand s = .next u) :
    ∃ t, step (s.setRandInput [rand]) = .next t ∧ u = t.setRandInput s.randInput := by
  unfold stepWith at h
  split at h
  · next t ht => cases h; exact ⟨t, ht, rfl⟩
  · cases h
  · cases h

theorem hostStep_step_next {rand : Byte} {h : Session} {t : State} (ht : stepWith rand h.machine = .next t) :
    hostStep (.step rand) h = .next (⟨t, .stepped⟩, .stepped t.result) := by
  simp only [hostStep, Session.step, ht]

/-- The ways a host operation can end in a next state. -/
theorem hostStep_cases {op : HostOp} {h g : Session} {a : HostReply} (hg : hostStep op h = .next (g, a)) :
    (∃ bytes, op = .load bytes ∧ h.phase = .created ∧ bytes.length ≤ 4096 - 0x200 ∧
      g = ⟨h.machine.setMEM (h.machine.MEM.writeBytes 0x200 bytes), .loaded⟩) ∨
    (∃ bytes, op = .load bytes ∧ h.phase = .created ∧ 4096 - 0x200 < bytes.length ∧ g = h) ∨
    (∃ rand t, op = .step rand ∧ stepWith rand h.machine = .next t ∧ g = ⟨t, .stepped⟩) ∨
    (op = .tickTimers ∧ g = h.withMachine h.machine.tickTimers) ∨
    (∃ k p, op = .setKey k p ∧ g = h.withMachine (h.machine.setKey k p)) ∨
    ((op = .readDisplay ∨ op = .readSound ∨ op = .readStatus) ∧ g = h) := by
  cases op with
  | load bytes =>
    by_cases hp : h.phase = .created
    · by_cases hl : bytes.length ≤ 4096 - 0x200
      · rw [hostStep_load_fits hp hl] at hg; cases hg
        exact .inl ⟨bytes, rfl, hp, hl, rfl⟩
      · rw [hostStep_load_too_large hp (by omega)] at hg; cases hg
        exact .inr (.inl ⟨bytes, rfl, hp, by omega, rfl⟩)
    · rw [hostStep_load_refused hp] at hg; cases hg
  | step rand =>
    simp only [hostStep, Session.step] at hg
    split at hg
    · next t ht => cases hg; exact .inr (.inr (.inl ⟨rand, t, rfl, ht, rfl⟩))
    · cases hg
    · cases hg
  | tickTimers => cases hg; exact .inr (.inr (.inr (.inl ⟨rfl, rfl⟩)))
  | setKey k p => cases hg; exact .inr (.inr (.inr (.inr (.inl ⟨k, p, rfl, rfl⟩))))
  | readDisplay => cases hg; exact .inr (.inr (.inr (.inr (.inr ⟨.inl rfl, rfl⟩))))
  | readSound => cases hg; exact .inr (.inr (.inr (.inr (.inr ⟨.inr (.inl rfl), rfl⟩))))
  | readStatus => cases hg; exact .inr (.inr (.inr (.inr (.inr ⟨.inr (.inr rfl), rfl⟩))))

end Sys2Proof.Machine
end

