-- ==== Sys2Proof/Laws/PerInstr.lean ====
section
/-! SUPPORT. A statement about every instruction as syntax: its row is a row of the opcode map (30_encoding.md R56), and
the word of a well-formed instruction matches it. One lemma per constructor. -/

namespace Sys2Proof.Laws

/-- The word of group `g` and an NNN operand matches the group's row. -/
theorem row_NNN (g : Fin 16) (a : Addr) (h : addrFits a = true) :
    (OpcodeRow.mk (BitVec.ofNat 16 (0x1000 * g.val)) 0xF000).admits (BitVec.ofNat 16 (0x1000 * g.val + bitsNNN a)) =
      true := by
  have ha : a.toNat < 4096 := by simpa [addrFits] using h
  rw [admits_F000 (by revert g; decide)]
  obtain ⟨h1, -⟩ := fields_of_NNN g a ha rfl
  rw [bitsNNN, Nat.mod_eq_of_lt ha, h1]
  clear h1; revert g; decide

/-- The word of group `g` and operands X, NN matches the group's row. -/
theorem row_XNN (g : Fin 16) (x : Reg) (nn : Byte) :
    (OpcodeRow.mk (BitVec.ofNat 16 (0x1000 * g.val)) 0xF000).admits
      (BitVec.ofNat 16 (0x1000 * g.val + bitsXNN x nn)) = true := by
  rw [admits_F000 (by revert g; decide)]
  obtain ⟨h1, -⟩ := fields_of_XNN g x nn rfl
  rw [bitsXNN, ← Nat.add_assoc, h1]
  clear h1; revert g; decide

/-- The word of group `g`, operands X, Y and sub-opcode `n` matches its row. -/
theorem row_XY (g n : Fin 16) (x y : Reg) :
    (OpcodeRow.mk (BitVec.ofNat 16 (0x1000 * g.val + n.val)) 0xF00F).admits
      (BitVec.ofNat 16 (0x1000 * g.val + n.val + bitsXY x y)) = true := by
  rw [admits_F00F (by revert g n; decide)]
  obtain ⟨h1, -, -, h4, -⟩ := fields_of_nibbles g x y n rfl
  rw [bitsXY, show 0x1000 * g.val + n.val + (0x100 * x.val + 0x10 * y.val) =
    0x1000 * g.val + 0x100 * x.val + 0x10 * y.val + n.val by omega, h1, h4]
  clear h1 h4; revert g n; decide

/-- The word of group `g`, operand X and sub-opcode with nibbles `y`, `n` matches its row. -/
theorem row_X (g y n : Fin 16) (x : Reg) :
    (OpcodeRow.mk (BitVec.ofNat 16 (0x1000 * g.val + 0x10 * y.val + n.val)) 0xF0FF).admits
      (BitVec.ofNat 16 (0x1000 * g.val + 0x10 * y.val + n.val + bitsX x)) = true := by
  have hp := fields_of_nibbles g 0 y n (w := BitVec.ofNat 16 (0x1000 * g.val + 0x10 * y.val + n.val)) (by simp)
  obtain ⟨h1, -, -, -, h5⟩ := fields_of_nibbles g x y n rfl
  rw [admits_F0FF]
  · rw [bitsX, show 0x1000 * g.val + 0x10 * y.val + n.val + 0x100 * x.val =
      0x1000 * g.val + 0x100 * x.val + 0x10 * y.val + n.val by omega]
    exact ⟨h1.trans hp.1.symm, BitVec.eq_of_toNat_eq (h5.trans hp.2.2.2.2.symm)⟩
  · rw [show (0xF0FF#16 : Word) = 0xF000#16 ||| 0x00FF#16 from rfl]
    refine BitVec.eq_of_toNat_eq ?_
    rw [BitVec.and_or_distrib_left, BitVec.toNat_or, toNat_and_F000, toNat_and_00FF, hp.1, hp.2.2.2.2,
      BitVec.toNat_ofNat, Nat.mul_comm 0x1000, show 0x1000 = 2 ^ 12 from rfl, ← Nat.shiftLeft_eq,
      ← Nat.shiftLeft_add_eq_or_of_lt (by omega), Nat.shiftLeft_eq]
    omega

/-- The word of group D and operands X, Y, N matches the group's row. -/
theorem row_XYN (g : Fin 16) (x y : Reg) (n : Nat) :
    (OpcodeRow.mk (BitVec.ofNat 16 (0x1000 * g.val)) 0xF000).admits
      (BitVec.ofNat 16 (0x1000 * g.val + (bitsXY x y + n % 0x10))) = true := by
  rw [admits_F000 (by revert g; decide)]
  obtain ⟨h1, -⟩ := fields_of_nibbles g x y (nibble n) rfl
  rw [bitsXY, show 0x1000 * g.val + (0x100 * x.val + 0x10 * y.val + n % 0x10) =
    0x1000 * g.val + 0x100 * x.val + 0x10 * y.val + (nibble n).val by simp only [val_nibble]; omega, h1]
  clear h1; revert g; decide

namespace EncodesItsRow

/-- The instruction's row is in the opcode map, and its word matches the row. -/
def Statement (i : Instr) : Prop := i.row ∈ opcodeRows ∧ (i.wellFormed = true → i.row.admits (encode i) = true)

theorem cls : Statement .cls := ⟨by decide, fun _ => by decide⟩

theorem ret : Statement .ret := ⟨by decide, fun _ => by decide⟩

theorem jpAddr (a : Addr) : Statement (.jpAddr a) := ⟨by rw [Instr.row]; decide, fun h => row_NNN 1 a h⟩

theorem callAddr (a : Addr) : Statement (.callAddr a) := ⟨by rw [Instr.row]; decide, fun h => row_NNN 2 a h⟩

theorem seVxByte (x : Reg) (nn : Byte) : Statement (.seVxByte x nn) := ⟨by rw [Instr.row]; decide, fun _ => row_XNN 3 x nn⟩

theorem sneVxByte (x : Reg) (nn : Byte) : Statement (.sneVxByte x nn) := ⟨by rw [Instr.row]; decide, fun _ => row_XNN 4 x nn⟩

theorem seVxVy (x y : Reg) : Statement (.seVxVy x y) := ⟨by rw [Instr.row]; decide, fun _ => row_XY 5 0 x y⟩

theorem ldVxByte (x : Reg) (nn : Byte) : Statement (.ldVxByte x nn) := ⟨by rw [Instr.row]; decide, fun _ => row_XNN 6 x nn⟩

theorem addVxByte (x : Reg) (nn : Byte) : Statement (.addVxByte x nn) := ⟨by rw [Instr.row]; decide, fun _ => row_XNN 7 x nn⟩

theorem ldVxVy (x y : Reg) : Statement (.ldVxVy x y) := ⟨by rw [Instr.row]; decide, fun _ => row_XY 8 0 x y⟩

theorem orVxVy (x y : Reg) : Statement (.orVxVy x y) := ⟨by rw [Instr.row]; decide, fun _ => row_XY 8 1 x y⟩

theorem andVxVy (x y : Reg) : Statement (.andVxVy x y) := ⟨by rw [Instr.row]; decide, fun _ => row_XY 8 2 x y⟩

theorem xorVxVy (x y : Reg) : Statement (.xorVxVy x y) := ⟨by rw [Instr.row]; decide, fun _ => row_XY 8 3 x y⟩

theorem addVxVy (x y : Reg) : Statement (.addVxVy x y) := ⟨by rw [Instr.row]; decide, fun _ => row_XY 8 4 x y⟩

theorem subVxVy (x y : Reg) : Statement (.subVxVy x y) := ⟨by rw [Instr.row]; decide, fun _ => row_XY 8 5 x y⟩

theorem shrVxVy (x y : Reg) : Statement (.shrVxVy x y) := ⟨by rw [Instr.row]; decide, fun _ => row_XY 8 6 x y⟩

theorem subnVxVy (x y : Reg) : Statement (.subnVxVy x y) := ⟨by rw [Instr.row]; decide, fun _ => row_XY 8 7 x y⟩

theorem shlVxVy (x y : Reg) : Statement (.shlVxVy x y) := ⟨by rw [Instr.row]; decide, fun _ => row_XY 8 14 x y⟩

theorem sneVxVy (x y : Reg) : Statement (.sneVxVy x y) := ⟨by rw [Instr.row]; decide, fun _ => row_XY 9 0 x y⟩

theorem ldIAddr (a : Addr) : Statement (.ldIAddr a) := ⟨by rw [Instr.row]; decide, fun h => row_NNN 10 a h⟩

theorem jpV0Addr (a : Addr) : Statement (.jpV0Addr a) := ⟨by rw [Instr.row]; decide, fun h => row_NNN 11 a h⟩

theorem rndVxByte (x : Reg) (nn : Byte) : Statement (.rndVxByte x nn) := ⟨by rw [Instr.row]; decide, fun _ => row_XNN 12 x nn⟩

theorem drwVxVyNibble (x y : Reg) (n : Nat) : Statement (.drwVxVyNibble x y n) := ⟨by rw [Instr.row]; decide, fun _ => row_XYN 13 x y n⟩

theorem skpVx (x : Reg) : Statement (.skpVx x) := ⟨by rw [Instr.row]; decide, fun _ => row_X 14 9 14 x⟩

theorem sknpVx (x : Reg) : Statement (.sknpVx x) := ⟨by rw [Instr.row]; decide, fun _ => row_X 14 10 1 x⟩

theorem ldVxDT (x : Reg) : Statement (.ldVxDT x) := ⟨by rw [Instr.row]; decide, fun _ => row_X 15 0 7 x⟩

theorem ldVxK (x : Reg) : Statement (.ldVxK x) := ⟨by rw [Instr.row]; decide, fun _ => row_X 15 0 10 x⟩

theorem ldDTVx (x : Reg) : Statement (.ldDTVx x) := ⟨by rw [Instr.row]; decide, fun _ => row_X 15 1 5 x⟩

theorem ldSTVx (x : Reg) : Statement (.ldSTVx x) := ⟨by rw [Instr.row]; decide, fun _ => row_X 15 1 8 x⟩

theorem addIVx (x : Reg) : Statement (.addIVx x) := ⟨by rw [Instr.row]; decide, fun _ => row_X 15 1 14 x⟩

theorem ldFVx (x : Reg) : Statement (.ldFVx x) := ⟨by rw [Instr.row]; decide, fun _ => row_X 15 2 9 x⟩

theorem ldBVx (x : Reg) : Statement (.ldBVx x) := ⟨by rw [Instr.row]; decide, fun _ => row_X 15 3 3 x⟩

theorem ldMemVx (x : Reg) : Statement (.ldMemVx x) := ⟨by rw [Instr.row]; decide, fun _ => row_X 15 5 5 x⟩

theorem ldVxMem (x : Reg) : Statement (.ldVxMem x) := ⟨by rw [Instr.row]; decide, fun _ => row_X 15 6 5 x⟩

end EncodesItsRow

end Sys2Proof.Laws
end

