-- ==== Sys2Proof/Tests/Slice0.lean ====
section
/-! SUPPORT. The model's own tests. Expected results are the vectors of spec/95_test_vectors.md (named V-…), the examples of
the instructions' rules, and words written out from the encodings of 30_encoding.md. The witnesses at the end show, for
each statement with hypotheses, concrete values that meet them. -/

namespace Sys2Proof.Tests

open Sys2Proof.Machine

/-! ### Helpers -/

/-- The outcome is a next state with the property. -/
def answers (o : Host.Outcome State Fault Refusal) (p : State → Bool) : Bool :=
  match o with
  | .next t => p t
  | .fault _ => false
  | .refused _ => false

theorem answers_next {o : Host.Outcome State Fault Refusal} {p : State → Bool} (h : answers o p = true) :
    ∃ t, o = .next t ∧ p t = true := by
  cases o with
  | next t => exact ⟨t, rfl, h⟩
  | fault f => cases h
  | refused r => cases h

/-- One step, from the state with the word placed at `pc`. -/
def runs (w : Nat) (s : State) (p : State → Bool) : Bool := answers (step (s.withFetchWord 16 w)) p

/-- Registers set one after another. -/
def regs (s : State) : List (Reg × Byte) → State
  | [] => s
  | (r, v) :: rest => regs (s.setReg r v) rest

/-- The reset state with some registers set. -/
def withRegs (rs : List (Reg × Byte)) : State := regs State.reset rs

/-- The reset state with bytes in memory and `I` at them. -/
def withBytes (a : Nat) (bs : List Byte) : State :=
  (State.reset.setMEM (State.reset.MEM.writeBytes a bs)).setI (BitVec.ofNat 16 a)

/-- The set pixels, as (column, row), row by row. -/
def lit (d : Display) : List (Nat × Nat) :=
  d.toList.zipIdx.flatMap fun row => (row.1.toList.zipIdx.filter fun p => p.1).map fun p => (p.2, row.2)

/-- The display with the given pixels set. -/
def withLit (s : State) : List (Fin 64 × Fin 32) → State
  | [] => s
  | (c, r) :: rest => withLit (s.setDISP (s.DISP.toggle c r)) rest

/-- The engine holds this error. -/
def faulted (s : State) (kind : ErrorKind) (a : Addr) : Bool := s.engine == .faulted ⟨kind, a⟩

/-! ### WellFormed: each check refuses an ill-formed term -/

theorem test_wellFormed_refuses_jp_past_12_bits : (Instr.jpAddr 0x1000).wellFormed = false := by decide

theorem test_wellFormed_refuses_call_past_12_bits : (Instr.callAddr 0x1000).wellFormed = false := by decide

theorem test_wellFormed_refuses_index_past_12_bits : (Instr.ldIAddr 0x1000).wellFormed = false := by decide

theorem test_wellFormed_refuses_offset_jump_past_12_bits : (Instr.jpV0Addr 0x1000).wellFormed = false := by decide

theorem test_wellFormed_refuses_height_16 : (Instr.drwVxVyNibble 0 0 16).wellFormed = false := by decide

theorem test_wellFormed_admits_the_largest_operands :
    (Instr.jpAddr 0xFFF).wellFormed = true ∧ (Instr.drwVxVyNibble 15 15 15).wellFormed = true := by decide

theorem test_fontFits : Params.fontFits Params.fontBase Params.fontData = true ∧
    Params.fontFits 0x1B1 Params.fontData = false ∧ Params.fontFits 0x050 [] = false := by decide

/-! ### Decode: one word written out for every constructor, from the Encoding line of its rule -/

theorem test_decode_groups_0_to_7_and_9_to_D :
    decode 0b0000000011100000 = .instr .cls ∧
    decode 0b0000000011101110 = .instr .ret ∧
    decode 0b0001001000110100 = .instr (.jpAddr 0x234) ∧
    decode 0b0010001100000000 = .instr (.callAddr 0x300) ∧
    decode 0b0011001100010000 = .instr (.seVxByte 3 0x10) ∧
    decode 0b0100001100010000 = .instr (.sneVxByte 3 0x10) ∧
    decode 0b0101000100100000 = .instr (.seVxVy 1 2) ∧
    decode 0b0110101001000010 = .instr (.ldVxByte 10 0x42) ∧
    decode 0b0111000000000001 = .instr (.addVxByte 0 0x01) ∧
    decode 0b1001000100100000 = .instr (.sneVxVy 1 2) ∧
    decode 0b1010001000101010 = .instr (.ldIAddr 0x22A) ∧
    decode 0b1011001100000000 = .instr (.jpV0Addr 0x300) ∧
    decode 0b1100001100001111 = .instr (.rndVxByte 3 0x0F) ∧
    decode 0b1101000100100101 = .instr (.drwVxVyNibble 1 2 5) := by decide

theorem test_decode_group_8 :
    decode 0b1000000100100000 = .instr (.ldVxVy 1 2) ∧
    decode 0b1000000100100001 = .instr (.orVxVy 1 2) ∧
    decode 0b1000000100100010 = .instr (.andVxVy 1 2) ∧
    decode 0b1000000100100011 = .instr (.xorVxVy 1 2) ∧
    decode 0b1000000100100100 = .instr (.addVxVy 1 2) ∧
    decode 0b1000000100100101 = .instr (.subVxVy 1 2) ∧
    decode 0b1000010101100110 = .instr (.shrVxVy 5 6) ∧
    decode 0b1000000100100111 = .instr (.subnVxVy 1 2) ∧
    decode 0b1000010101101110 = .instr (.shlVxVy 5 6) := by decide

theorem test_decode_groups_E_and_F :
    decode 0b1110000110011110 = .instr (.skpVx 1) ∧
    decode 0b1110000110100001 = .instr (.sknpVx 1) ∧
    decode 0b1111001100000111 = .instr (.ldVxDT 3) ∧
    decode 0b1111001100001010 = .instr (.ldVxK 3) ∧
    decode 0b1111001100010101 = .instr (.ldDTVx 3) ∧
    decode 0b1111001100011000 = .instr (.ldSTVx 3) ∧
    decode 0b1111001000011110 = .instr (.addIVx 2) ∧
    decode 0b1111010000101001 = .instr (.ldFVx 4) ∧
    decode 0b1111011100110011 = .instr (.ldBVx 7) ∧
    decode 0b1111001001010101 = .instr (.ldMemVx 2) ∧
    decode 0b1111001001100101 = .instr (.ldVxMem 2) := by decide

theorem test_decode_unknown_words :
    decode 0x0000 = .unknown 0x0000 ∧ decode 0x00E1 = .unknown 0x00E1 ∧ decode 0x01EE = .unknown 0x01EE ∧
    decode 0x512F = .unknown 0x512F ∧ decode 0x812F = .unknown 0x812F ∧ decode 0x9121 = .unknown 0x9121 ∧
    decode 0xE19F = .unknown 0xE19F ∧ decode 0xF156 = .unknown 0xF156 := by decide

theorem test_encode_writes_the_operands_back :
    encode (.jpAddr 0x234) = 0x1234 ∧ encode (.seVxByte 3 0x10) = 0x3310 ∧ encode (.subnVxVy 1 2) = 0x8127 ∧
    encode (.drwVxVyNibble 1 2 5) = 0xD125 ∧ encode (.ldVxMem 2) = 0xF265 := by decide

theorem test_decodeTableWord :
    decodeTableWord 16 0xF255 = some (.ldMemVx 2) ∧ decodeTableWord 16 0x00EE = some .ret ∧
    decodeTableWord 16 0x0000 = none := by decide

theorem test_withFetchWord_stores_the_high_byte_first :
    (State.reset.withFetchWord 16 0x6A12).MEM = [(0x200, 0x6A), (0x201, 0x12)] ∧
    (State.reset.withFetchWord 16 0x6A12).pc = 0x200 := by decide

/-! ### Memory -/

theorem test_reset_memory_is_canonical : State.reset.MEM.wf = true := by decide

theorem test_writing_the_reset_contents_unlists_the_byte :
    (Memory.write (Memory.write [] 0x300 0xAA) 0x300 0x00) = [] ∧
    (Memory.write (Memory.write [] 0x050 0xAA) 0x050 0xF0) = [] := by decide

theorem test_canonical_form_refuses :
    Memory.wf [(0x300, 0x00)] = false ∧ Memory.wf [(0x1000, 0x01)] = false ∧
    Memory.wf [(0x301, 0x01), (0x300, 0x01)] = false := by decide

/-! ### The cycle (40_cycle.md) -/

/-- V-CY1, V-CY2. -/
theorem test_cycle_runs_at_0x200_and_at_0xFFE :
    runs 0x6A12 State.reset (fun t => t.reg 10 == 0x12 && t.pc == 0x202) = true ∧
    runs 0x6A12 (State.reset.setPc 0xFFE) (fun t => t.reg 10 == 0x12 && t.pc == 0x1000) = true := by decide

/-- V-CY3, V-CY4. -/
theorem test_fetch_past_memory :
    answers (step (State.reset.setPc 0xFFF)) (fun t => faulted t (.memoryFault 0x1000) 0xFFF && t.pc == 0xFFF) = true ∧
    answers (step (State.reset.setPc 0x1000)) (fun t => faulted t (.memoryFault 0x1000) 0x1000 && t.pc == 0x1000) = true := by decide

/-- V-CY5. -/
theorem test_fetch_at_an_odd_address :
    runs 0x6A12 (State.reset.setPc 0x201) (fun t => t.reg 10 == 0x12 && t.pc == 0x203) = true := by decide

/-- V-CY6, V-CY7. -/
theorem test_unknown_opcode :
    runs 0x0000 State.reset (fun t => faulted t (.unknownOpcode 0x0000) 0x200 && t.pc == 0x202) = true ∧
    runs 0x5121 State.reset (fun t => faulted t (.unknownOpcode 0x5121) 0x200 && t.pc == 0x202) = true := by decide

/-- V-CY12. -/
theorem test_faulted_is_absorbing :
    step (State.reset.setEngine (.faulted ⟨.unknownOpcode 0, 0x200⟩)) =
      .next (State.reset.setEngine (.faulted ⟨.unknownOpcode 0, 0x200⟩)) := rfl

/-! ### Control flow (41_control_flow.md) -/

/-- V-CF1, V-CF3. -/
theorem test_jp :
    runs 0x1234 State.reset (fun t => t.pc == 0x234) = true ∧
    runs 0x1FFF State.reset (fun t => t.pc == 0xFFF && t.engine == .running) = true := by decide

/-- V-CF4, V-CF5. -/
theorem test_call :
    runs 0x2300 State.reset (fun t => t.pc == 0x300 && t.SP == 1 && t.slot 0 == 0x202) = true ∧
    runs 0x2300 (State.reset.setSP 15) (fun t => t.pc == 0x300 && t.SP == 16 && t.slot 15 == 0x202) = true := by decide

/-- V-CF6. -/
theorem test_call_overflows :
    runs 0x2300 (State.reset.setSP 16) (fun t => faulted t .stackOverflow 0x200 && t.pc == 0x202 && t.SP == 16) = true := by decide

/-- V-CF7, V-CF8. -/
theorem test_ret :
    runs 0x00EE (((State.reset.setPc 0x300).setSP 1).setSlot 0 0x202) (fun t => t.pc == 0x202 && t.SP == 0 && t.slot 0 == 0x202) = true ∧
    runs 0x00EE State.reset (fun t => faulted t .stackUnderflow 0x200 && t.pc == 0x202) = true := by decide

/-- V-CF9, V-CF10. -/
theorem test_jp_V0 :
    runs 0xB300 (withRegs [(0, 0x04)]) (fun t => t.pc == 0x304) = true ∧
    runs 0xBFFF (withRegs [(0, 0xFF)]) (fun t => t.pc == 0x10FE) = true := by decide

/-- V-CF11, V-CF12. -/
theorem test_se_byte :
    runs 0x3310 (withRegs [(3, 0x10)]) (fun t => t.pc == 0x204) = true ∧
    runs 0x3310 (withRegs [(3, 0x11)]) (fun t => t.pc == 0x202) = true := by decide

/-- V-CF13, V-CF14. -/
theorem test_sne_byte :
    runs 0x4310 (withRegs [(3, 0x11)]) (fun t => t.pc == 0x204) = true ∧
    runs 0x4310 (withRegs [(3, 0x10)]) (fun t => t.pc == 0x202) = true := by decide

/-- V-CF15, V-CF16. -/
theorem test_se_reg :
    runs 0x5120 (withRegs [(1, 0x07), (2, 0x07)]) (fun t => t.pc == 0x204) = true ∧
    runs 0x5120 (withRegs [(1, 0x07), (2, 0x08)]) (fun t => t.pc == 0x202) = true := by decide

/-- V-CF18, V-CF19. -/
theorem test_sne_reg :
    runs 0x9120 (withRegs [(1, 0x07), (2, 0x08)]) (fun t => t.pc == 0x204) = true ∧
    runs 0x9120 (withRegs [(1, 0x07), (2, 0x07)]) (fun t => t.pc == 0x202) = true := by decide

/-! ### Register operations (42_register_ops.md) -/

/-- V-RG1. -/
theorem test_ld_byte :
    runs 0x6A42 State.reset (fun t => t.reg 10 == 0x42 && t.pc == 0x202) = true := by decide

/-- V-RG2, V-RG3. -/
theorem test_add_byte :
    runs 0x7A20 (withRegs [(10, 0xF0)]) (fun t => t.reg 10 == 0x10 && t.reg 15 == 0) = true ∧
    runs 0x7F01 (withRegs [(15, 0xFF)]) (fun t => t.reg 15 == 0) = true := by decide

/-- V-RG4. -/
theorem test_ld_reg :
    runs 0x8010 (withRegs [(1, 0x5A)]) (fun t => t.reg 0 == 0x5A && t.reg 1 == 0x5A) = true := by decide

/-- V-RG5. -/
theorem test_or :
    runs 0x8011 (withRegs [(0, 0xF0), (1, 0x0F), (15, 0x77)]) (fun t => t.reg 0 == 0xFF && t.reg 15 == 0x77) = true := by decide

/-- V-RG6. -/
theorem test_and :
    runs 0x8012 (withRegs [(0, 0xF0), (1, 0x3C), (15, 0x77)]) (fun t => t.reg 0 == 0x30 && t.reg 15 == 0x77) = true := by decide

/-- V-RG7. -/
theorem test_xor :
    runs 0x8013 (withRegs [(0, 0xF0), (1, 0x3C), (15, 0x77)]) (fun t => t.reg 0 == 0xCC && t.reg 15 == 0x77) = true := by decide

/-- V-RG8, V-RG10. -/
theorem test_add_reg :
    runs 0x8014 (withRegs [(0, 0xFF), (1, 0x01)]) (fun t => t.reg 0 == 0 && t.reg 15 == 1) = true ∧
    runs 0x8014 (withRegs [(0, 0xFF), (1, 0x00), (15, 0x01)]) (fun t => t.reg 0 == 0xFF && t.reg 15 == 0) = true := by decide

/-- V-RG12, V-RG13. -/
theorem test_add_reg_with_VF :
    runs 0x8F14 (withRegs [(1, 0x90), (15, 0x80)]) (fun t => t.reg 15 == 1) = true ∧
    runs 0x80F4 (withRegs [(0, 0x10), (15, 0x05)]) (fun t => t.reg 0 == 0x15 && t.reg 15 == 0) = true := by decide

/-- V-RG14, V-RG15. -/
theorem test_sub :
    runs 0x8015 (withRegs [(0, 0x05), (1, 0x03)]) (fun t => t.reg 0 == 2 && t.reg 15 == 1) = true ∧
    runs 0x8015 (withRegs [(0, 0x00), (1, 0x01), (15, 0x01)]) (fun t => t.reg 0 == 0xFF && t.reg 15 == 0) = true := by decide

/-- V-RG16, V-RG17. -/
theorem test_sub_equal_and_into_VF :
    runs 0x8015 (withRegs [(0, 0x33), (1, 0x33)]) (fun t => t.reg 0 == 0 && t.reg 15 == 1) = true ∧
    runs 0x8F15 (withRegs [(1, 0x20), (15, 0x10)]) (fun t => t.reg 15 == 0) = true := by decide

/-- V-RG18, V-RG19. -/
theorem test_subn :
    runs 0x8017 (withRegs [(0, 0x03), (1, 0x05)]) (fun t => t.reg 0 == 2 && t.reg 15 == 1) = true ∧
    runs 0x8017 (withRegs [(0, 0x05), (1, 0x03), (15, 0x01)]) (fun t => t.reg 0 == 0xFE && t.reg 15 == 0) = true := by decide

/-- V-RG20, V-RG22. -/
theorem test_shr :
    runs 0x8506 (withRegs [(5, 0x05)]) (fun t => t.reg 5 == 2 && t.reg 15 == 1) = true ∧
    runs 0x8566 (withRegs [(5, 0x04), (6, 0x03), (15, 0x01)]) (fun t => t.reg 5 == 2 && t.reg 15 == 0) = true := by decide

/-- V-RG23, V-RG24. -/
theorem test_shr_of_Vy_and_into_VF :
    (shrWith .vy 5 6 (withRegs [(5, 0x04), (6, 0x03)])).reg 5 = 1 ∧ (shrWith .vy 5 6 (withRegs [(5, 0x04), (6, 0x03)])).reg 15 = 1 ∧
    runs 0x8F06 (withRegs [(15, 0x03)]) (fun t => t.reg 15 == 1) = true := by decide

/-- V-RG25, V-RG26. -/
theorem test_shl :
    runs 0x850E (withRegs [(5, 0x81)]) (fun t => t.reg 5 == 2 && t.reg 15 == 1) = true ∧
    runs 0x850E (withRegs [(5, 0x7F), (15, 0x01)]) (fun t => t.reg 5 == 0xFE && t.reg 15 == 0) = true := by decide

/-- V-RG27. -/
theorem test_shl_into_VF :
    runs 0x8F0E (withRegs [(15, 0x40)]) (fun t => t.reg 15 == 0) = true := by decide

/-! ### Index register (43_index.md) -/

/-- V-IX1. -/
theorem test_ld_I :
    runs 0xA22A State.reset (fun t => t.I == 0x22A && t.pc == 0x202) = true := by decide

/-- V-IX3, V-IX6. -/
theorem test_add_I :
    runs 0xF21E ((withRegs [(2, 0x01)]).setI 0x0FFF) (fun t => t.I == 0x1000 && t.reg 15 == 0) = true ∧
    runs 0xF21E ((withRegs [(2, 0x01)]).setI 0xFFFF) (fun t => t.I == 0) = true := by decide

/-- V-IX4, V-IX5. -/
theorem test_add_I_sets_VF_where_the_parameter_says_so :
    (addIWith true 2 ((withRegs [(2, 0x01)]).setI 0x0FFF)).reg 15 = 1 ∧ (addIWith true 2 ((withRegs [(2, 0x01), (15, 0x01)]).setI 0x0FFE)).reg 15 = 0 := by decide

/-- V-IX8, V-IX9. -/
theorem test_ld_F :
    runs 0xF429 (withRegs [(4, 0x1A)]) (fun t => t.I == 0x082) = true ∧
    runs 0xF429 (withRegs [(4, 0x0F)]) (fun t => t.I == 0x09B) = true := by decide

/-! ### Random (44_random.md): the byte is the operand of the step -/

/-- V-RN1, V-RN4. -/
theorem test_rnd :
    answers (stepWith 0xA7 (State.reset.withFetchWord 16 0xC30F)) (fun t => t.reg 3 == 0x07 && t.pc == 0x202) = true ∧
    answers (stepWith 0x3C (State.reset.withFetchWord 16 0xCFF0)) (fun t => t.reg 15 == 0x30 && t.randInput == []) = true := by decide

/-- A draw with no byte at hand: one free value is used up (44_random.md R107). -/
theorem test_rnd_with_mask_0_whatever_the_draw :
    runs 0xC300 (withRegs [(3, 0x55)]) (fun t => t.draws == 1 && t.randInput == []) = true := by decide

/-! ### Memory blocks (45_memory_block.md) -/

/-- V-MB1, V-MB5. -/
theorem test_store_regs :
    runs 0xF255 ((withRegs [(0, 1), (1, 2), (2, 3)]).setI 0x300) (fun t => t.MEM.readBytes 0x2FF 5 == [0, 1, 2, 3, 0] && t.I == 0x300 && t.MEM.wf) = true ∧
    runs 0xFF55 ((withRegs [(0, 9)]).setI 0xFF1) (fun t => faulted t (.memoryFault 0x1000) 0x200 && t.pc == 0x202 && t.MEM.read 0xFF1 == 0) = true := by decide

/-- V-MB2. -/
theorem test_store_regs_advance :
    (storeRegsWith .advance 2 ((withRegs [(0, 1), (1, 2), (2, 3)]).setI 0x300)).I = 0x303 ∧ (storeRegsWith .advance 2 ((withRegs [(0, 1), (1, 2), (2, 3)]).setI 0x300)).MEM = [(0x300, 1), (0x301, 2), (0x302, 3)] := by decide

/-- V-MB8, V-MB10. -/
theorem test_load_regs :
    runs 0xFF65 (State.reset.setI 0x050) (fun t => t.V.toList == [0xF0, 0x90, 0x90, 0x90, 0xF0, 0x20, 0x60, 0x20, 0x20, 0x70, 0xF0, 0x10, 0xF0, 0x80, 0xF0, 0xF0]) = true ∧
    runs 0xF165 ((withRegs [(0, 5)]).setI 0xFFF) (fun t => faulted t (.memoryFault 0x1000) 0x200 && t.reg 0 == 5) = true := by decide

/-- V-MB7. -/
theorem test_load_regs_advance :
    (loadRegsWith .advance 2 (withBytes 0x300 [1, 2, 3])).I = 0x303 ∧
    (loadRegsWith .advance 2 (withBytes 0x300 [1, 2, 3])).reg 2 = 3 ∧
    (loadRegsWith .advance 2 (withBytes 0x300 [1, 2, 3])).reg 3 = 0 := by decide

/-- V-MB12, V-MB17. -/
theorem test_bcd :
    runs 0xF533 ((withBytes 0x300 [0xFF, 0xFF, 0xFF]).setReg 5 0xFF) (fun t => t.MEM.readBytes 0x300 3 == [2, 5, 5]) = true ∧
    runs 0xF533 ((withBytes 0xFFE [0xFF, 0xFF]).setReg 5 0x7B) (fun t => faulted t (.memoryFault 0x1000) 0x200 && t.MEM.readBytes 0xFFE 2 == [0xFF, 0xFF]) = true := by decide

/-- V-MB16, and V-MB14. -/
theorem test_bcd_at_the_last_address :
    runs 0xF533 ((withBytes 0xFFD [0xFF, 0xFF, 0xFF]).setReg 5 0x7B) (fun t => t.MEM.readBytes 0xFFD 3 == [1, 2, 3]) = true ∧
    runs 0xF533 ((withBytes 0x300 [0xFF, 0xFF, 0xFF]).setReg 5 0x2A) (fun t => t.MEM.readBytes 0x300 3 == [0, 4, 2]) = true := by decide

/-! ### Timers (46_timers.md) -/

/-- V-TM1. -/
theorem test_ld_from_DT :
    runs 0xF307 (State.reset.setDT 60) (fun t => t.reg 3 == 0x3C && t.DT == 60) = true := by decide

/-- V-TM2. -/
theorem test_ld_DT :
    runs 0xF315 (withRegs [(3, 5)]) (fun t => t.DT == 5 && t.ST == 0) = true := by decide

/-- V-TM3, V-TM4. -/
theorem test_ld_ST :
    runs 0xF318 (withRegs [(3, 2)]) (fun t => t.ST == 2 && t.toneOn) = true ∧
    runs 0xF318 ((State.reset.setDT 7).setST 1) (fun t => t.ST == 0 && t.DT == 7) = true := by decide

/-- V-TK3, V-TK2. -/
theorem test_tick :
    (((State.reset.setDT 3).setST 1).tickTimers).DT = 2 ∧ (((State.reset.setDT 3).setST 1).tickTimers).ST = 0 ∧
    State.reset.tickTimers = State.reset := by decide

/-! ### Input (47_input.md) -/

/-- V-KY1, V-KY5. -/
theorem test_skp :
    runs 0xE19E ((withRegs [(1, 0x05)]).setKey 5 true) (fun t => t.pc == 0x204) = true ∧
    runs 0xE19E ((withRegs [(1, 0x13)]).setKey 3 true) (fun t => t.pc == 0x204) = true := by decide

/-- V-KY3, V-KY4. -/
theorem test_sknp :
    runs 0xE1A1 (withRegs [(1, 0x05)]) (fun t => t.pc == 0x204) = true ∧
    runs 0xE1A1 ((withRegs [(1, 0x05)]).setKey 5 true) (fun t => t.pc == 0x202) = true := by decide

/-- V-KY7. -/
theorem test_wait_for_key :
    runs 0xF30A (State.reset.setKey 2 true) (fun t => t.engine == .waitingForKey 3 && t.pc == 0x202 && t.reg 3 == 0) = true := by decide

/-- V-KY9, V-KY10. -/
theorem test_wait_step :
    answers (step (((State.reset.setKey 9 true).setKey 4 true).setEngine (.waitingForKey 3)))
      (fun t => t.reg 3 == 4 && t.engine == .running && t.pc == 0x200) = true ∧
    answers (step (((withRegs [(15, 1)]).setKey 12 true).setEngine (.waitingForKey 15))) (fun t => t.reg 15 == 0x0C) = true := by decide

/-! ### Display (48_display.md) -/

/-- V-DS11. -/
theorem test_cls :
    runs 0x00E0 (withLit (withRegs [(15, 1)]) [(0, 0), (63, 31)]) (fun t => lit t.DISP == [] && t.reg 15 == 1) = true := by decide

/-- V-DS1. -/
theorem test_drw_glyph_0 :
    runs 0xD015 (State.reset.setI 0x050) (fun t => t.reg 15 == 0 && t.pc == 0x202 && lit t.DISP ==
      [(0, 0), (1, 0), (2, 0), (3, 0), (0, 1), (3, 1), (0, 2), (3, 2), (0, 3), (3, 3), (0, 4), (1, 4), (2, 4), (3, 4)]) = true := by decide

/-- V-DS3, V-DS4. -/
theorem test_drw_wraps :
    runs 0xD011 ((withBytes 0x300 [0xFF]).setReg 0 0x3E) (fun t => lit t.DISP == [(0, 0), (1, 0), (2, 0), (3, 0), (4, 0), (5, 0), (62, 0), (63, 0)]) = true ∧
    runs 0xD014 ((withBytes 0x300 [0x80, 0x80, 0x80, 0x80]).setReg 1 0x1E) (fun t => lit t.DISP == [(0, 0), (0, 1), (0, 30), (0, 31)]) = true := by decide

/-- V-DS8. -/
theorem test_drw_collides_with_X_F :
    runs 0xDF11 (withLit ((withBytes 0x300 [0xC0]).setReg 15 0x03) [(3, 0)]) (fun t => t.reg 15 == 1 && lit t.DISP == [(4, 0)]) = true := by decide

/-- V-DS9, V-DS6. -/
theorem test_drw_past_memory_and_of_no_rows :
    runs 0xD015 ((withRegs [(15, 1)]).setI 0xFFC) (fun t => faulted t (.memoryFault 0x1000) 0x200 && t.reg 15 == 1) = true ∧
    runs 0xD010 (withLit ((withRegs [(15, 1)]).setI 0x300) [(5, 5)]) (fun t => t.reg 15 == 0 && lit t.DISP == [(5, 5)]) = true := by decide

/-- The clause of 48_display.md R128 that the model does not follow (log entry 13): a sprite with a set bit, drawn twice over
a pixel that is set, ends with VF = 0, as R126 computes it. -/
theorem test_drw_twice_over_a_set_pixel :
    answers (step ((withLit (withBytes 0x300 [0x80]) [(0, 0)]).withFetchWord 16 0xD121)) (fun t => t.reg 15 == 1 &&
      answers (step (t.withFetchWord 16 0xD121)) (fun u => u.reg 15 == 0 && lit u.DISP == [(0, 0)])) = true := by decide

/-! ### Loading (70_reset_and_hazards.md R148, R150) -/

/-- V-LD2. -/
theorem test_load : State.reset.load [0x60, 0x05, 0x70] =
    .ok (State.reset.setMEM [(0x200, 0x60), (0x201, 0x05), (0x202, 0x70)]) := by decide

/-- V-LD5. -/
theorem test_load_too_large : State.reset.load (List.replicate 3585 0xAA) = .error .romTooLarge := by
  rw [State.load, if_pos (by rw [List.length_replicate]; decide)]

/-- The boot order (70_reset_and_hazards.md R149, R150; 93_implementation_defined.md row 20): a second load and a load after
a step are refused, a failed load is not the one load. -/
theorem test_load_is_refused_after_a_load_and_after_a_step :
    hostStep (.load [0x00]) ⟨State.reset, .loaded⟩ = .refused .loadOutOfOrder ∧
    hostStep (.load [0x00]) ⟨State.reset, .stepped⟩ = .refused .loadOutOfOrder ∧
    hostStep (.load (List.replicate 3585 0xAA)) Session.fresh = .next (Session.fresh, .loadError .romTooLarge) :=
  ⟨rfl, rfl, by simp only [hostStep, Session.load, Session.fresh, test_load_too_large]⟩

/-- The codes of 60_exceptions.md R130. -/
theorem test_codes : (ErrorKind.memoryFault 0x1000).code = 1 ∧ ErrorKind.stackOverflow.code = 2 ∧
    ErrorKind.stackUnderflow.code = 3 ∧ (ErrorKind.unknownOpcode 0).code = 4 ∧ LoadError.romTooLarge.code = 5 := by decide

/-! ### Witnesses: concrete values that meet the hypotheses of each statement

One theorem for each statement of Certificates/Slice0/Obligations.lean that has hypotheses, with a witness for each of its
clauses at a boundary of its range. -/

/-- The word the next step fetches. -/
def wordAt (s : State) : Word := bigEndian (s.MEM.read s.pc.toNat) (s.MEM.read (s.pc.toNat + 1))

/-- The state about to run a word at an address. -/
def about (a : Addr) (w : Nat) : State := (State.reset.setPc a).withFetchWord 16 w

/-- The state that waits for a key into a register. -/
def waitingFor (r : Reg) : State := State.reset.setEngine (.waitingForKey r)

theorem witness_DecodeOfEncodeIsTheInstruction :
    (Instr.jpAddr 0xFFF).wellFormed = true ∧ (Instr.drwVxVyNibble 15 15 15).wellFormed = true ∧
    (Instr.ldVxByte 15 0xFF).wellFormed = true := by decide

theorem witness_EncodeOfDecodeIsTheWord :
    decode 0x1FFF = .instr (.jpAddr 0xFFF) ∧ decode 0xDFFF = .instr (.drwVxVyNibble 15 15 15) := by decide

theorem witness_DecoderFollowsTheOpcodeMap :
    OpcodeRow.mk 0x8001 0xF00F ∈ opcodeRows ∧ (OpcodeRow.mk 0x8001 0xF00F).admits 0x8FF1 = true ∧
    ∀ p ∈ opcodeRows, p.admits 0x8008 = false := by decide

theorem witness_StepRunsTheDecodedInstruction :
    (about 0xFFE 0x6A12).engine = .running ∧ (about 0xFFE 0x6A12).pc.toNat + 1 < 4096 ∧
    decode (wordAt (about 0xFFE 0x6A12)) = .instr (.ldVxByte 10 0x12) := by decide

theorem witness_CycleFetchesAdvancesDecodesExecutes :
    (State.reset.setPc 0x1000).engine = .running ∧ 4096 ≤ (State.reset.setPc 0x1000).pc.toNat ∧
    (State.reset.setPc 0xFFF).pc.toNat = 4095 ∧ (about 0xFFE 0x6A12).pc.toNat + 1 < 4096 ∧
    (0x6A12 : Word).toNat = 256 * ((about 0xFFE 0x6A12).MEM.read 0xFFE).toNat +
      ((about 0xFFE 0x6A12).MEM.read 0xFFF).toNat ∧
    decode 0x6A12 = .instr (.ldVxByte 10 0x12) ∧ decode 0x0000 = .unknown 0x0000 := by decide

theorem witness_FaultedIsAbsorbing :
    (State.reset.setEngine (.faulted ⟨.stackUnderflow, 0x200⟩)).engine = .faulted ⟨.stackUnderflow, 0x200⟩ := rfl

theorem witness_WaitStepTakesTheLeastPressedKey :
    (waitingFor 3).engine = .waitingForKey 3 ∧ (∀ k : Key, (waitingFor 3).key k = false) ∧
    (((waitingFor 3).setKey 0 true).key 0 = true ∧ ∀ j : Key, j < 0 → ((waitingFor 3).setKey 0 true).key j = false) ∧
    ((waitingFor 3).setKey 15 true).key 15 = true ∧
    ∀ j : Key, j < 15 → ((waitingFor 3).setKey 15 true).key j = false := by decide

theorem witness_EngineTransitionsAreTheOnlyOnes :
    (∃ t, step (about 0x200 0xFF0A) = .next t ∧ (t.engine == .waitingForKey 15) = true) ∧
    ((about 0x200 0xFF0A).engine = .running ∧ (about 0x200 0xFF0A).pc.toNat + 1 < 4096 ∧
      decode (wordAt (about 0x200 0xFF0A)) = .instr (.ldVxK 15)) ∧
    (waitingFor 15).engine = .waitingForKey 15 ∧
    hostStep (.load [0x12]) Session.fresh = .next (⟨State.reset.setMEM [(0x200, 0x12)], .loaded⟩, .done) ∧
    ∀ rand, HostOp.load [0x12] ≠ .step rand :=
  ⟨answers_next (by decide), by decide, rfl, rfl, by simp⟩

theorem witness_ErrorsArePrecise :
    (∃ t, step (State.reset.setPc 0xFFF) = .next t ∧ faulted t (.memoryFault 0x1000) 0xFFF = true) ∧
    (∃ t, step (about 0xFFE 0x00EE) = .next t ∧ faulted t .stackUnderflow 0xFFE = true) :=
  ⟨answers_next (by decide), answers_next (by decide)⟩

theorem witness_ExecutionErrorsHaveTheirListedCauses :
    (∃ t, exec (.drwVxVyNibble 0 0 1) (State.reset.setI 0x1000) = .next t ∧
      faulted t (.memoryFault 0x1000) 0x1FE = true) ∧
    (∃ t, exec (.ldBVx 0) (State.reset.setI 0xFFE) = .next t ∧ faulted t (.memoryFault 0x1000) 0x1FE = true) ∧
    (∃ t, exec (.ldMemVx 15) (State.reset.setI 0xFF1) = .next t ∧ faulted t (.memoryFault 0x1000) 0x1FE = true) ∧
    (∃ t, exec (.ldVxMem 0) (State.reset.setI 0xFFFF) = .next t ∧ faulted t (.memoryFault 0xFFFF) 0x1FE = true) ∧
    (∃ t, exec (.callAddr 0) (State.reset.setSP 16) = .next t ∧ faulted t .stackOverflow 0x1FE = true) ∧
    ∃ t, exec .ret State.reset = .next t ∧ faulted t .stackUnderflow 0x1FE = true :=
  ⟨answers_next (by decide), answers_next (by decide), answers_next (by decide), answers_next (by decide),
    answers_next (by decide), answers_next (by decide)⟩

theorem witness_ParkedStaysParked : (about 0x200 0x1200).parked := ⟨rfl, by decide, rfl⟩

theorem witness_NextFetchSeesTheStore :
    (State.reset.setI 0xFF0).I.toNat + (15 : Reg).val < 4096 ∧ (15 : Reg).val = (14 : Reg).val + 1 ∧
    (15 : Reg).val ≤ (15 : Reg).val ∧ (0xFFE : Addr).toNat = (State.reset.setI 0xFF0).I.toNat + (14 : Reg).val := by
  decide

/-- The reset state has the invariant's five clauses, so the premises about `Inv` can be met. -/
theorem reset_inv : State.reset.Inv :=
  ⟨by decide, by decide, by decide, rfl, fun _ h => by cases h⟩

theorem witness_StepKeepsTheInvariant : State.reset.Inv ∧ ∃ t, step State.reset = .next t ∧
    faulted t (.unknownOpcode 0) 0x200 = true := ⟨reset_inv, answers_next (by decide)⟩

theorem witness_EveryReachableStateHasTheInvariant :
    Reachable ⟨State.reset.setMEM [(0x200, 0x12)], .loaded⟩ ∧
    Reachable (Session.fresh.withMachine (State.reset.setKey 15 true)) :=
  ⟨.operated (op := .load [0x12]) (a := .done) .created rfl,
    .operated (op := .setKey 15 true) (a := .done) .created rfl⟩

theorem witness_EveryHostOperationAnswersANextState :
    Session.fresh.machine.Inv ∧ (∀ bytes, HostOp.load [0x12] = .load bytes → Session.fresh.phase = .created) ∧
    ∀ bytes, HostOp.step 0xFF = .load bytes → (⟨State.reset, .stepped⟩ : Session).phase = .created :=
  ⟨reset_inv, fun _ _ => rfl, fun _ h => by cases h⟩

theorem witness_EveryHostOperationKeepsTheInvariant :
    Session.fresh.machine.Inv ∧
    (hostStep (.load [0x12]) Session.fresh = .next (⟨State.reset.setMEM [(0x200, 0x12)], .loaded⟩, .done)) ∧
    hostStep .tickTimers Session.fresh = .next (Session.fresh.withMachine State.reset.tickTimers, .done) :=
  ⟨reset_inv, rfl, rfl⟩

/-- A load after a load, and after a step; a first load, and the step after it. -/
theorem witness_BootOrderIsKept :
    BootPhase.loaded ≠ .created ∧ BootPhase.stepped ≠ .created ∧
    (∃ g, hostStep (.load [0x12]) Session.fresh = .next (g, .done)) ∧
    ∃ g a, hostStep (.step 0) Session.fresh = .next (g, a) :=
  ⟨by decide, by decide, ⟨_, rfl⟩, ⟨_, _, rfl⟩⟩

/-- The longest ROM, the empty one with every byte past it, a byte below 0x200, and a tick after the load. -/
theorem witness_LoadedMemoryIsTheRomAndNothingElse :
    (Reachable Session.fresh ∧ Session.fresh.phase = .created) ∧
    (List.replicate 3584 (0xAA : Byte)).length ≤ 4096 - 0x200 ∧ ([0x12] : List Byte)[0]? = some 0x12 ∧
    0x1FF < 0x200 ∧ 0x200 + ([] : List Byte).length ≤ 0x200 ∧ 0xFFF < 4096 ∧
    Reachable ⟨State.reset.setMEM [(0x200, 0x12)], .loaded⟩ ∧
    (∃ g, hostStep .tickTimers ⟨State.reset.setMEM [(0x200, 0x12)], .loaded⟩ = .next (g, .done)) ∧
    ∀ rand, HostOp.tickTimers ≠ .step rand :=
  ⟨⟨.created, rfl⟩, by rw [List.length_replicate], rfl, by decide, by decide, by decide,
    .operated (op := .load [0x12]) (a := .done) .created rfl, ⟨_, rfl⟩, by simp⟩

theorem witness_JumpSetsPcToTheAddress : (0xFFF : Addr).toNat < 4096 := by decide

theorem witness_CallPushesTheReturnAddress :
    (0xFFF : Addr).toNat < 4096 ∧ State.reset.SP.toNat < 16 ∧ (State.reset.setSP 15).SP.toNat < 16 ∧
    (State.reset.setSP 16).SP.toNat = 16 := by decide

theorem witness_ReturnPopsThePc :
    (State.reset.setSP 1).SP.toNat = (0 : Fin 16).val + 1 ∧ (State.reset.setSP 16).SP.toNat = (15 : Fin 16).val + 1 ∧
    State.reset.SP.toNat = 0 := by decide

theorem witness_CallAndReturnStopAboveDepthSixteen : 16 < (State.reset.setSP 17).SP.toNat := by decide

theorem witness_CallThenReturnComesBack : (State.reset.setSP 15).SP.toNat < 16 := by decide

theorem witness_JumpOffsetCopyAndUnequalSkip : (0xFFF : Addr).toNat < 4096 ∧ (1 : Reg) ≠ 2 := by decide

theorem witness_EqualRegistersSkip :
    0 < 15 ∧ 15 < 16 ∧ (0x5FFF : Word).toNat = 0x5000 + 0x100 * (15 : Reg).val + 0x10 * (15 : Reg).val + 15 := by decide

theorem witness_KeySkips :
    (15 : Key).val = ((withRegs [(1, 0xFF)]).reg 1).toNat % 16 ∧ (0 : Key).val = (State.reset.reg 1).toNat % 16 := by
  decide

/-- The premises `x ≠ VF`, `r ≠ x`, `r ≠ VF` of the statements about one result register. -/
theorem witness_register_premises : (0 : Reg) ≠ VF ∧ (1 : Reg) ≠ 0 ∧ (1 : Reg) ≠ VF := by decide

theorem witness_ShiftRightSetsTheBitShiftedOut :
    0xFF = (if ShiftSource.vy = .vx then (withRegs [(6, 0xFF)]).reg 5 else (withRegs [(6, 0xFF)]).reg 6).toNat ∧
    (5 : Reg) ≠ VF := by decide

theorem witness_ShiftLeftSetsTheBitShiftedOut :
    0x80 = (if ShiftSource.vx = .vx then (withRegs [(5, 0x80)]).reg 5 else (withRegs [(5, 0x80)]).reg 6).toNat ∧
    (5 : Reg) ≠ VF := by decide

theorem witness_SetIndexRegister : (0xFFF : Addr).toNat < 4096 := by decide

theorem witness_RandomConsumesOneByte :
    (State.reset.setRandInput [0xA7, 0x01]).randInput = 0xA7 :: [0x01] ∧ State.reset.randInput = [] := by decide

theorem witness_RandomByteIsTheStepsOperand :
    (about 0xFFE 0xCFFF).engine = .running ∧ (about 0xFFE 0xCFFF).pc.toNat + 1 < 4096 ∧
    decode (wordAt (about 0xFFE 0xCFFF)) = .instr (.rndVxByte 15 0xFF) := by decide

theorem witness_StoreRegistersToMemory :
    (State.reset.setI 0xFF0).indexAddr + (15 : Reg).val < 4096 ∧ (15 : Reg) ≤ 15 ∧
    0xFEF < (State.reset.setI 0xFF0).indexAddr ∧
    4096 ≤ (State.reset.setI 0xFF1).indexAddr + (15 : Reg).val := by decide

theorem witness_LoadRegistersFromMemory :
    (State.reset.setI 0xFF0).indexAddr + (15 : Reg).val < 4096 ∧
    4096 ≤ (State.reset.setI 0xFF1).indexAddr + (15 : Reg).val := by decide

theorem witness_StoreDecimalDigits :
    (State.reset.setI 0xFFD).indexAddr + 2 < 4096 ∧ 0xFFC < (State.reset.setI 0xFFD).indexAddr ∧
    4096 ≤ (State.reset.setI 0xFFE).indexAddr + 2 := by decide

/-- Column 63 and row 31 under the last bit of a sprite at (56, 31), and a pixel outside it; and N = 0, whose sprite has no
pixel and is in range wherever `I` is. -/
theorem witness_DrawXorsTheSprite :
    ((withRegs [(0, 56), (1, 31)]).setI 0xFFF).indexAddr + 1 ≤ 4096 ∧
    (63 : Fin 64).val = (((withRegs [(0, 56), (1, 31)]).reg 0).toNat + 7) % 64 ∧
    (31 : Fin 32).val = (((withRegs [(0, 56), (1, 31)]).reg 1).toNat + 0) % 32 ∧
    (¬ ∃ r c : Nat, r < 1 ∧ c < 8 ∧ (0 : Fin 64).val = (((withRegs [(0, 56), (1, 31)]).reg 0).toNat + c) % 64 ∧
      (0 : Fin 32).val = (((withRegs [(0, 56), (1, 31)]).reg 1).toNat + r) % 32) ∧
    ((0 = 0 ∨ (State.reset.setI 0xFFFF).indexAddr + 0 ≤ 4096) ∧
      ¬ ∃ r c : Nat, r < 0 ∧ c < 8 ∧ (0 : Fin 64).val = ((State.reset.reg 0).toNat + c) % 64 ∧
        (0 : Fin 32).val = ((State.reset.reg 1).toNat + r) % 32) := by
  refine ⟨by decide, by decide, by decide, ?_, .inl rfl, fun ⟨r, _, hr, _⟩ => absurd hr (Nat.not_lt_zero r)⟩
  rintro ⟨r, c, hr, hc, h1, h2⟩
  have e : ((withRegs [(0, 56), (1, 31)]).reg 1).toNat = 31 := by decide
  rw [e] at h2
  have h3 : (0 : Fin 32).val = 0 := rfl
  omega

theorem witness_DrawSetsTheCollisionFlag :
    (State.reset.setI 0xFF1).indexAddr + 15 ≤ 4096 ∧ 4096 < (State.reset.setI 0xFF2).indexAddr + 15 := by decide

theorem witness_DrawingTwiceRestoresTheDisplay :
    (0 : Reg) ≠ VF ∧ (1 : Reg) ≠ VF ∧ (State.reset.setI 0xFF1).indexAddr + 15 ≤ 4096 ∧
    ∃ t, exec (.drwVxVyNibble 0 1 15) (State.reset.setI 0xFF1) = .next t ∧ (t.reg VF == 0) = true :=
  ⟨by decide, by decide, by decide, answers_next (by decide)⟩

theorem witness_PcMovesOnlyAsListed :
    (∃ t, step (about 0xFFE 0x3000) = .next t ∧ (t.pc == 0x1002) = true) ∧
    (about 0xFFE 0x3000).engine = .running ∧ (about 0xFFE 0x3000).pc.toNat < 4095 ∧
    (∃ t, step (State.reset.setPc 0xFFF) = .next t ∧ (t.pc == 0xFFF) = true) ∧
    4095 ≤ (State.reset.setPc 0xFFF).pc.toNat ∧
    (∃ t, step (waitingFor 3) = .next t ∧ (t.pc == 0x200) = true) ∧ (waitingFor 3).engine ≠ .running :=
  ⟨answers_next (by decide), by decide, by decide, answers_next (by decide), by decide, answers_next (by decide),
    by decide⟩

theorem witness_EachPieceOfStateHasItsWriters :
    (∃ t, exec (.ldIAddr 0xFFF) State.reset = .next t ∧ (t.I != State.reset.I) = true) ∧
    (∃ t, exec (.callAddr 0) State.reset = .next t ∧
      (t.SP != State.reset.SP && t.STACK != State.reset.STACK) = true) ∧
    (∃ t, exec (.ldDTVx 0) (withRegs [(0, 1)]) = .next t ∧ (t.DT != (withRegs [(0, 1)]).DT) = true) ∧
    (∃ t, exec (.ldSTVx 0) (withRegs [(0, 1)]) = .next t ∧ (t.ST != (withRegs [(0, 1)]).ST) = true) ∧
    (∃ t, exec .cls (withLit State.reset [(63, 31)]) = .next t ∧
      (t.DISP != (withLit State.reset [(63, 31)]).DISP) = true) ∧
    (∃ t, exec (.ldMemVx 0) (withRegs [(0, 1)]) = .next t ∧ (t.MEM != (withRegs [(0, 1)]).MEM) = true) ∧
    (∃ t, exec (.ldBVx 0) (withRegs [(0, 255)]) = .next t ∧ (t.MEM != (withRegs [(0, 255)]).MEM) = true) ∧
    (∃ t, exec (.ldVxK 0) State.reset = .next t ∧ (t.engine != State.reset.engine) = true) ∧
    ∃ t, exec (.rndVxByte 0 0) State.reset = .next t ∧ (t.draws != State.reset.draws) = true :=
  ⟨answers_next (by decide), answers_next (by decide), answers_next (by decide), answers_next (by decide),
    answers_next (by decide), answers_next (by decide), answers_next (by decide), answers_next (by decide),
    answers_next (by decide)⟩

theorem witness_RegistersWrittenAreTheTables :
    (∃ t, exec (.addVxVy 0 1) (withRegs [(0, 0xFF), (1, 1)]) = .next t ∧ (t.reg VF != 0) = true) ∧
    (∃ t, exec (.ldVxByte 15 1) State.reset = .next t ∧ (t.reg 15 != State.reset.reg 15) = true) ∧
    (∃ t, exec (.ldVxDT 3) (State.reset.setDT 1) = .next t ∧ (t.reg 3 != 0) = true) ∧
    ∃ t, exec (.ldVxMem 15) (State.reset.setI 0x050) = .next t ∧ (t.reg 15 != State.reset.reg 15) = true :=
  ⟨answers_next (by decide), answers_next (by decide), answers_next (by decide), answers_next (by decide)⟩

theorem witness_TimersAreReadOnlyByTheirReader :
    (∃ t, exec (.ldDTVx 0) State.reset = .next t ∧ (t.DT == 0) = true) ∧
    (∃ t, exec (.ldSTVx 0) State.reset = .next t ∧ (t.ST == 0) = true) ∧
    (∀ x, Instr.cls ≠ .ldSTVx x) ∧ (∀ x, Instr.cls ≠ .ldDTVx x) ∧ ∀ x, Instr.cls ≠ .ldVxDT x :=
  ⟨answers_next (by decide), answers_next (by decide), by simp, by simp, by simp⟩

theorem witness_KeysAreReadOnlyByTheKeySkips :
    (∃ t, exec (.ldVxK 0) State.reset = .next t ∧ (t.engine == .waitingForKey 0) = true) ∧
    (∀ x, Instr.ldVxK 0 ≠ .skpVx x) ∧ ∀ x, Instr.ldVxK 0 ≠ .sknpVx x :=
  ⟨answers_next (by decide), by simp, by simp⟩

theorem witness_SetKeyWritesOneKey : (0 : Key) ≠ 15 := by decide

theorem witness_LoadCopiesTheRom :
    Session.fresh.phase = .created ∧ (List.replicate 3584 (0xAA : Byte)).length ≤ 4096 - 0x200 ∧
    ([0x12, 0x34] : List Byte)[1]? = some 0x34 ∧ 0x1FF < 0x200 ∧
    4096 - 0x200 < (List.replicate 3585 (0xAA : Byte)).length := by
  refine ⟨rfl, ?_, rfl, by decide, ?_⟩
  · rw [List.length_replicate]
  · rw [List.length_replicate]; decide

theorem witness_ResetState : (0x04F < 0x050 ∨ 0x0A0 ≤ 0x04F) ∧ (0x0A0 < 0x050 ∨ 0x0A0 ≤ 0x0A0) := by decide

end Sys2Proof.Tests
end

section
/-! SUPPORT. What an instruction that answers a next state has done, said once for all 34: the inversion of the call, the
return and the sprite draw, the pieces of state each instruction writes, the errors it can raise, and where `pc` goes. -/

namespace Sys2Proof

/-- What a word decodes to is a well-formed instruction: its operands are fields of the word (30_encoding.md R54). -/
theorem wellFormed_of_decode {w : Word} {i : Instr} (h : decode w = .instr i) : i.wellFormed = true := by
  have hNNN : addrFits (fieldNNN w) = true := decide_eq_true (fieldNNN_lt w)
  have hN : heightFits (fieldN w) = true := decide_eq_true (fieldN_lt w)
  unfold decode decode0 decode5 decode8 decode9 decodeE decodeF at h
  repeat' split at h
  all_goals cases h
  all_goals simp only [Instr.wellFormed, hNNN, hN]

namespace Machine

/-! ### Call, return and draw -/

theorem exec_callAddr_overflow {s : State} (addr : Addr) (h : s.SP.toNat = 16) :
    exec (.callAddr addr) s = .next (s.raise .stackOverflow) := if_pos h

theorem exec_callAddr_absent {s : State} (addr : Addr) (h : 16 < s.SP.toNat) :
    exec (.callAddr addr) s = .fault .stackSlotAbsent := by
  rw [exec, execCallAddr, if_neg (by simp only [Config.stackDepth]; omega), if_pos h]

theorem exec_callAddr_push {s : State} (addr : Addr) (h : s.SP.toNat < 16) :
    exec (.callAddr addr) s = .next ((s.push s.pc).setPc addr) := by
  rw [exec, execCallAddr, if_neg (by simp only [Config.stackDepth]; omega),
    if_neg (by simp only [Config.stackDepth]; omega)]

/-- A call overflows or pushes. -/
theorem exec_callAddr_cases {s t : State} {addr : Addr} (h : exec (.callAddr addr) s = .next t) :
    (s.SP.toNat = 16 ∧ t = s.raise .stackOverflow) ∨ (s.SP.toNat < 16 ∧ t = (s.push s.pc).setPc addr) := by
  rcases Nat.lt_trichotomy s.SP.toNat 16 with hlt | heq | hgt
  · rw [exec_callAddr_push addr hlt] at h; cases h; exact .inr ⟨hlt, rfl⟩
  · rw [exec_callAddr_overflow addr heq] at h; cases h; exact .inl ⟨heq, rfl⟩
  · rw [exec_callAddr_absent addr hgt] at h; cases h

theorem exec_ret_underflow {s : State} (h : s.SP.toNat = 0) :
    exec .ret s = .next (s.raise .stackUnderflow) := if_pos h

theorem exec_ret_absent {s : State} (h : 16 < s.SP.toNat) : exec .ret s = .fault .stackSlotAbsent := by
  rw [exec, execRet, if_neg (by omega), if_pos h]

theorem exec_ret_pop {s : State} (h0 : 0 < s.SP.toNat) (h : s.SP.toNat ≤ 16) :
    exec .ret s = .next (s.pop.2.setPc s.pop.1) := by
  rw [exec, execRet, if_neg (by omega), if_neg (by simp only [Config.stackDepth]; omega)]

/-- A return underflows or pops. -/
theorem exec_ret_cases {s t : State} (h : exec .ret s = .next t) :
    (s.SP.toNat = 0 ∧ t = s.raise .stackUnderflow) ∨
      (0 < s.SP.toNat ∧ s.SP.toNat ≤ 16 ∧ t = s.pop.2.setPc s.pop.1) := by
  by_cases h0 : s.SP.toNat = 0
  · rw [exec_ret_underflow h0] at h; cases h; exact .inl ⟨h0, rfl⟩
  · by_cases h16 : s.SP.toNat ≤ 16
    · rw [exec_ret_pop (by omega) h16] at h; cases h; exact .inr ⟨by omega, h16, rfl⟩
    · rw [exec_ret_absent (by omega)] at h; cases h

/-- DXYN with a sprite row outside memory. -/
theorem exec_drw_outside {x y : Reg} {n : Nat} {s : State} (h0 : n ≠ 0) (h : 4096 < s.indexAddr + n) :
    exec (.drwVxVyNibble x y n) s = .next (s.raise (.memoryFault (max s.indexAddr 4096))) := by
  rw [exec, execDrwVxVyNibble, if_neg h0, State.accessing_outside h, State.raise_eq]

/-- A draw completes or raises MemoryFault. -/
theorem exec_drw_cases {x y : Reg} {n : Nat} {s t : State} (h : exec (.drwVxVyNibble x y n) s = .next t) :
    ((n = 0 ∨ s.indexAddr + n ≤ 4096) ∧ t = s.drawn x y n) ∨
      (n ≠ 0 ∧ 4096 < s.indexAddr + n ∧ t = s.raise (.memoryFault (max s.indexAddr 4096))) := by
  by_cases hin : n = 0 ∨ s.indexAddr + n ≤ 4096
  · rw [exec_drw_inside hin] at h; cases h; exact .inl ⟨hin, rfl⟩
  · obtain ⟨h0, h1⟩ := not_or.mp hin
    rw [exec_drw_outside h0 (by omega)] at h; cases h; exact .inr ⟨h0, by omega, rfl⟩

/-! ### What an instruction writes -/

/-- The state `s` with the pieces the instruction writes when it completes taken from `u` (10_state.md R18 to R29,
20_memory.md R40; the open parameters at this spec's values, log entry 1). -/
def State.overlay (s : State) (i : Instr) (u : State) : State :=
  match i with
  | .cls => { s with DISP := u.DISP }
  | .ret => { s with pc := u.pc, SP := u.SP }
  | .callAddr _ => { s with pc := u.pc, SP := u.SP, STACK := u.STACK }
  | .jpAddr _ | .jpV0Addr _ | .seVxByte _ _ | .sneVxByte _ _ | .seVxVy _ _ | .sneVxVy _ _ | .skpVx _ | .sknpVx _ =>
    { s with pc := u.pc }
  | .ldVxByte _ _ | .addVxByte _ _ | .ldVxVy _ _ | .orVxVy _ _ | .andVxVy _ _ | .xorVxVy _ _ | .addVxVy _ _
  | .subVxVy _ _ | .shrVxVy _ _ | .subnVxVy _ _ | .shlVxVy _ _ | .ldVxDT _ | .ldVxMem _ => { s with V := u.V }
  | .ldIAddr _ | .addIVx _ | .ldFVx _ => { s with I := u.I }
  | .rndVxByte _ _ => { s with V := u.V, randInput := u.randInput, draws := u.draws }
  | .drwVxVyNibble _ _ _ => { s with V := u.V, DISP := u.DISP }
  | .ldVxK x => { s with engine := .waitingForKey x }
  | .ldDTVx _ => { s with DT := u.DT }
  | .ldSTVx _ => { s with ST := u.ST }
  | .ldBVx _ | .ldMemVx _ => { s with MEM := u.MEM }

/-- The errors an instruction can raise in a state (60_exceptions.md R131, R132). -/
def State.CanRaise (s : State) (kind : ErrorKind) : Prop :=
  kind = .memoryFault (max s.indexAddr 4096) ∨ kind = .stackOverflow ∨ kind = .stackUnderflow

/-- A skip writes only `pc`. -/
theorem State.skipIf_frame (s : State) (c : Bool) : s.skipIf c = { s with pc := (s.skipIf c).pc } := by
  cases c <;> rfl

/-- A range-checked access raises MemoryFault, or writes only what its completion writes. -/
theorem State.accessing_frame {i : Instr} {s done t : State} {len : Nat}
    (h : s.accessing s.indexAddr len done = .next t) (hdone : done = s.overlay i done) :
    (∃ kind, s.CanRaise kind ∧ t = s.raise kind) ∨ t = s.overlay i t := by
  rcases State.accessing_cases h with ⟨-, rfl⟩ | ⟨-, rfl⟩
  · exact .inr hdone
  · exact .inl ⟨_, .inl rfl, rfl⟩

/-- An instruction that answers a next state raises an error and does nothing else, or writes only its own pieces. -/
theorem exec_frame {i : Instr} {s t : State} (h : exec i s = .next t) :
    (∃ kind, s.CanRaise kind ∧ t = s.raise kind) ∨ t = s.overlay i t := by
  cases i
  case callAddr =>
    rcases exec_callAddr_cases h with ⟨-, rfl⟩ | ⟨-, rfl⟩
    · exact .inl ⟨_, .inr (.inl rfl), rfl⟩
    · exact .inr rfl
  case ret =>
    rcases exec_ret_cases h with ⟨-, rfl⟩ | ⟨-, -, rfl⟩
    · exact .inl ⟨_, .inr (.inr rfl), rfl⟩
    · exact .inr rfl
  case drwVxVyNibble =>
    rcases exec_drw_cases h with ⟨-, rfl⟩ | ⟨-, -, rfl⟩
    · exact .inr rfl
    · exact .inl ⟨_, .inl rfl, rfl⟩
  case ldBVx => exact State.accessing_frame h rfl
  case ldMemVx => exact State.accessing_frame h rfl
  case ldVxMem => exact State.accessing_frame h (State.loadRegs_eq _ _ _)
  case rndVxByte =>
    cases h
    rcases hr : s.randInput with _ | ⟨b, bs⟩
    · rw [State.drawByte_nil hr]; exact .inr rfl
    · rw [State.drawByte_cons hr]; exact .inr rfl
  case seVxByte | sneVxByte | seVxVy | sneVxVy | skpVx | sknpVx =>
    cases h
    exact .inr (State.skipIf_frame _ _)
  all_goals
    cases h
    exact .inr rfl

/-- Settles O49: each clause is read off the instruction's overlay; an error writes the engine alone. -/
theorem eachPieceOfStateHasItsWriters : Obligations.EachPieceOfStateHasItsWriters := by
  intro i s t h
  rcases exec_frame h with ⟨kind, -, rfl⟩ | hf
  · simp
  · obtain ⟨u, rfl⟩ : ∃ u, t = s.overlay i u := ⟨t, hf⟩
    cases i <;> simp [State.overlay]

/-! ### Where `pc` goes -/

/-- The six conditional skips (41_control_flow.md R85). -/
def IsSkip (i : Instr) : Prop :=
  (∃ x nn, i = .seVxByte x nn) ∨ (∃ x nn, i = .sneVxByte x nn) ∨ (∃ x y, i = .seVxVy x y) ∨
    (∃ x y, i = .sneVxVy x y) ∨ (∃ x, i = .skpVx x) ∨ ∃ x, i = .sknpVx x

theorem State.skipIf_pc (s : State) (c : Bool) : (s.skipIf c).pc = s.pc ∨ (s.skipIf c).pc = s.pc + 2 := by
  cases c
  · exact .inl rfl
  · exact .inr rfl

/-- An instruction leaves `pc` alone, skips, jumps, calls or returns. -/
theorem exec_pc_cases {i : Instr} {s t : State} (h : exec i s = .next t) :
    t.pc = s.pc ∨ (IsSkip i ∧ t.pc = s.pc + 2) ∨ (∃ a, i = .jpAddr a ∧ t.pc = a) ∨
      (∃ a, i = .jpV0Addr a ∧ t.pc = BitVec.ofNat 16 (a.toNat + (s.reg 0).toNat)) ∨
      (∃ a, i = .callAddr a ∧ t.pc = a) ∨ (i = .ret ∧ t.pc = s.slot (nibble (s.SP.toNat - 1))) := by
  rcases exec_frame h with ⟨kind, -, rfl⟩ | hf
  · exact .inl rfl
  · cases i
    case jpAddr a => cases h; exact .inr (.inr (.inl ⟨a, rfl, rfl⟩))
    case jpV0Addr a => cases h; exact .inr (.inr (.inr (.inl ⟨a, rfl, rfl⟩)))
    case callAddr a =>
      rcases exec_callAddr_cases h with ⟨-, rfl⟩ | ⟨-, rfl⟩
      · exact .inl rfl
      · exact .inr (.inr (.inr (.inr (.inl ⟨a, rfl, rfl⟩))))
    case ret =>
      rcases exec_ret_cases h with ⟨-, rfl⟩ | ⟨-, -, rfl⟩
      · exact .inl rfl
      · exact .inr (.inr (.inr (.inr (.inr ⟨rfl, rfl⟩))))
    case seVxByte | sneVxByte | seVxVy | sneVxVy | skpVx | sknpVx =>
      cases h
      refine (State.skipIf_pc _ _).imp_right fun hpc => .inl ⟨?_, hpc⟩
      simp [IsSkip]
    all_goals exact .inl (congrArg State.pc hf :)

theorem waitStep_pc (r : Reg) (s : State) : (waitStep r s).pc = s.pc := by
  rcases s.leastPressed_cases with ⟨-, hn⟩ | ⟨k, -, hk, hl⟩
  · rw [waitStep_none hn]
  · rw [waitStep_some hk hl]; rfl

/-- Settles O48, by the ways a step can end and, where it runs an instruction, the ways that moves `pc`. -/
theorem pcMovesOnlyAsListed : Obligations.PcMovesOnlyAsListed := by
  intro s t h
  refine ⟨fun hno => ?_, fun hrun hpc => ?_⟩
  · rcases step_cases h with ⟨e, -, rfl⟩ | ⟨r, -, rfl⟩ | ⟨-, -, rfl⟩ | ⟨hrun, hpc, -⟩ | ⟨i, hrun, hpc, -⟩
    · rfl
    · exact waitStep_pc r s
    · rfl
    all_goals
      rcases hno with hne | hge
      · exact absurd hrun hne
      · omega
  · rcases step_cases h with ⟨e, he, -⟩ | ⟨r, he, -⟩ | ⟨-, hge, -⟩ | ⟨-, -, -, rfl⟩ | ⟨i, -, -, hd, hex⟩
    · rw [hrun] at he; cases he
    · rw [hrun] at he; cases he
    · omega
    · exact .inl rfl
    · rcases exec_pc_cases hex with hkeep | ⟨hskip, hpc4⟩ | ⟨a, hi, -⟩ | ⟨a, hi, -⟩ | ⟨a, hi, -⟩ | ⟨hi, -⟩
      · exact .inl hkeep
      · exact .inr ⟨i, hd, .inl ⟨by rw [hpc4, State.setPc_pc, BitVec.add_assoc]; rfl, hskip⟩⟩
      · exact .inr ⟨i, hd, .inr (.inl ⟨a, hi⟩)⟩
      · exact .inr ⟨i, hd, .inr (.inr (.inl ⟨a, hi⟩))⟩
      · exact .inr ⟨i, hd, .inr (.inr (.inr (.inl ⟨a, hi⟩)))⟩
      · exact .inr ⟨i, hd, .inr (.inr (.inr (.inr hi)))⟩

/-- Settles O21: no slot of the call stack is named, so neither the error nor the completion applies. -/
theorem callAndReturnStopAboveDepthSixteen : Obligations.CallAndReturnStopAboveDepthSixteen :=
  fun addr _ h => ⟨exec_callAddr_absent addr h, exec_ret_absent h⟩

/-! ### The invariant -/

/-- An error an instruction can raise makes a legal record: `I` is at most 0xFFFF (10_state.md R34). -/
theorem State.CanRaise.legal {s : State} {kind : ErrorKind} {p : Addr} (h : s.CanRaise kind) (hp : p.toNat ≤ 0x10FE) :
    ErrorRecord.Legal ⟨kind, p⟩ := by
  rcases h with rfl | rfl | rfl
  · have : s.indexAddr < 65536 := s.I.isLt
    exact ⟨hp, by omega, by omega⟩
  · exact ⟨hp, trivial⟩
  · exact ⟨hp, trivial⟩

theorem State.Inv.setEngine {s : State} {e : Engine} (hs : s.Inv) (he : ∀ r, e = .faulted r → r.Legal) :
    (s.setEngine e).Inv :=
  ⟨hs.depth, hs.pcBound, hs.returns, hs.memory, he⟩

theorem State.Inv.setReg {s : State} (hs : s.Inv) (r : Reg) (v : Byte) : (s.setReg r v).Inv :=
  ⟨hs.depth, hs.pcBound, hs.returns, hs.memory, hs.error⟩

theorem State.Inv.setPc {s : State} {a : Addr} (hs : s.Inv) (ha : a.toNat ≤ 0x10FE) : (s.setPc a).Inv :=
  ⟨hs.depth, ha, hs.returns, hs.memory, hs.error⟩

theorem State.Inv.waitStep {s : State} (hs : s.Inv) (r : Reg) : (waitStep r s).Inv := by
  rcases s.leastPressed_cases with ⟨-, hn⟩ | ⟨k, -, hk, hl⟩
  · rw [waitStep_none hn]; exact hs
  · rw [waitStep_some hk hl]; exact (hs.setReg r _).setEngine nofun

section
variable {i : Instr} {s t : State} (h : exec i s = .next t)
include h

/-- The depth stays 0..16: a call at depth 16 and a return at depth 0 raise errors (41_control_flow.md R83). -/
theorem exec_depth (hs : s.SP.toNat ≤ 16) : t.SP.toNat ≤ 16 := by
  obtain ⟨-, hSP, -⟩ := eachPieceOfStateHasItsWriters i s t h
  by_cases heq : t.SP = s.SP
  · rwa [heq]
  · rcases hSP heq with ⟨a, rfl⟩ | rfl
    · rcases exec_callAddr_cases h with ⟨-, rfl⟩ | ⟨hlt, rfl⟩
      · exact hs
      · change (s.SP + 1).toNat ≤ 16
        bv_omega
    · rcases exec_ret_cases h with ⟨-, rfl⟩ | ⟨h0, -, rfl⟩
      · exact hs
      · change (s.SP - 1).toNat ≤ 16
        bv_omega

/-- From `pc` at most 0x1000 the farthest jump is BNNN, to at most 0xFFF + 0xFF (10_state.md R22). -/
theorem exec_pcBound (hi : i.wellFormed = true) (hpc : s.pc.toNat ≤ 0x1000)
    (hret : ∀ k, (s.slot k).toNat ≤ 0x1000) : t.pc.toNat ≤ 0x10FE := by
  rcases exec_pc_cases h with he | ⟨-, he⟩ | ⟨a, rfl, he⟩ | ⟨a, rfl, he⟩ | ⟨a, rfl, he⟩ | ⟨-, he⟩ <;> rw [he]
  · omega
  · bv_omega
  · have : a.toNat < 4096 := of_decide_eq_true hi
    omega
  · have : a.toNat < 4096 := of_decide_eq_true hi
    have := (s.reg 0).isLt
    rw [BitVec.toNat_ofNat]
    omega
  · have : a.toNat < 4096 := of_decide_eq_true hi
    omega
  · have := hret (nibble (s.SP.toNat - 1))
    omega

/-- The one address a call stores is the `pc` after the default advance. -/
theorem exec_returns (hpc : s.pc.toNat ≤ 0x1000) (hret : ∀ k, (s.slot k).toNat ≤ 0x1000) (k : Fin 16) :
    (t.slot k).toNat ≤ 0x1000 := by
  obtain ⟨-, -, hSTACK, -⟩ := eachPieceOfStateHasItsWriters i s t h
  by_cases heq : t.STACK = s.STACK
  · rw [State.slot, heq]; exact hret k
  · obtain ⟨a, rfl⟩ := hSTACK heq
    rcases exec_callAddr_cases h with ⟨-, rfl⟩ | ⟨-, rfl⟩
    · exact hret k
    · rw [State.push_eq, State.setPc_slot, State.setSP_slot, State.setSlot_slot]
      split
      · exact hpc
      · exact hret k

/-- FX33 and FX55 write only after their whole range was checked (45_memory_block.md R108). -/
theorem exec_memory_wf (hm : s.MEM.wf = true) : t.MEM.wf = true := by
  obtain ⟨-, -, -, -, -, -, -, hMEM, -⟩ := eachPieceOfStateHasItsWriters i s t h
  by_cases heq : t.MEM = s.MEM
  · rwa [heq]
  · rcases hMEM heq with ⟨x, rfl⟩ | ⟨x, rfl⟩
    · rcases State.accessing_cases h with ⟨hin, rfl⟩ | ⟨-, rfl⟩
      · exact Memory.wf_writeBytes hm hin
      · exact hm
    · rcases State.accessing_cases h with ⟨hin, rfl⟩ | ⟨-, rfl⟩
      · exact Memory.wf_writeBytes hm (by rwa [State.length_regsUpTo])
      · exact hm

/-- A running machine that an instruction leaves faulted has raised an error and done nothing else. -/
theorem exec_faulted {e : ErrorRecord} (hrun : s.engine = .running) (he : t.engine = .faulted e) :
    ∃ kind, s.CanRaise kind ∧ t = s.raise kind := by
  refine (exec_frame h).resolve_right fun hf => ?_
  rw [hf] at he
  cases i
  case ldVxK => cases he
  all_goals exact Engine.noConfusion (hrun.symm.trans he)

/-- The recorded address `pc - 2` is the one fetched from, since `pc` has advanced (log entry 7). -/
theorem exec_error_legal (hrun : s.engine = .running) (hlo : 2 ≤ s.pc.toNat) (hhi : s.pc.toNat ≤ 0x1000)
    (e : ErrorRecord) (he : t.engine = .faulted e) : e.Legal := by
  obtain ⟨kind, hk, rfl⟩ := exec_faulted h hrun he
  cases he
  exact hk.legal (by bv_omega)

end

/-- Settles O15, by the ways a step can end: a running step fetches below 0xFFF, so an instruction starts with `pc` in
2..0x1000, and each clause of the invariant is kept by every instruction. -/
theorem stepKeepsTheInvariant : Obligations.StepKeepsTheInvariant := by
  intro s t hs h
  rcases step_cases h with ⟨e, -, rfl⟩ | ⟨r, -, rfl⟩ | ⟨-, -, rfl⟩ | ⟨-, hpc, hd, rfl⟩ | ⟨i, hrun, hpc, hd, hex⟩
  · exact hs
  · exact hs.waitStep r
  · have := hs.pcBound
    refine hs.setEngine fun r hr => ?_
    cases hr
    exact ⟨this, by omega, by omega⟩
  · refine (hs.setPc (a := s.pc + 2) (by bv_omega)).setEngine fun r hr => ?_
    cases hr
    exact ⟨hs.pcBound, hd⟩
  · have hlo : 2 ≤ (s.pc + 2).toNat := by bv_omega
    have hhi : (s.pc + 2).toNat ≤ 0x1000 := by bv_omega
    exact ⟨exec_depth hex hs.depth, exec_pcBound hex (wellFormed_of_decode hd) hhi hs.returns,
      exec_returns hex hhi hs.returns, exec_memory_wf hex hs.memory, exec_error_legal hex hrun hlo hhi⟩

/-- Settles O14. -/
theorem invariantHoldsAtReset : Obligations.InvariantHoldsAtReset where
  depth := by decide
  pcBound := by decide
  returns := by decide
  memory := rfl
  error := nofun

/-! ### The registers an instruction writes -/

theorem State.eq_of_setReg_reg_ne {s : State} {x r : Reg} {v : Byte} (h : (s.setReg x v).reg r ≠ s.reg r) : r = x := by
  by_contra hne
  rw [State.setReg_reg, if_neg hne] at h
  exact h rfl

theorem State.eq_or_eq_of_setResultAndFlag_reg_ne {s : State} {x r : Reg} {v f : Byte}
    (h : (s.setResultAndFlag x v f).reg r ≠ s.reg r) : r = x ∨ r = VF := by
  by_contra hne
  obtain ⟨hx, hVF⟩ := not_or.mp hne
  rw [State.setResultAndFlag_reg, if_neg hVF, if_neg hx] at h
  exact h rfl

theorem State.le_of_loadRegs_reg_ne {s : State} {x r : Reg} {bs : List Byte} (hl : bs.length = x.val + 1)
    (h : (s.loadRegs 0 bs).reg r ≠ s.reg r) : r ≤ x := by
  by_contra hle
  have hlt : x.val < r.val := Fin.lt_def.mp (not_le.mp hle)
  rw [State.loadRegs_reg s 0 bs (by omega), if_neg (by omega)] at h
  exact h rfl

/-- Settles O50: an instruction outside the table keeps V by its overlay, and the register operations of the others write
only the registers the table names. -/
theorem registersWrittenAreTheTables : Obligations.RegistersWrittenAreTheTables := by
  intro i s t r h hne
  rcases exec_frame h with ⟨kind, -, rfl⟩ | hf
  · exact absurd rfl hne
  · cases i
    case addVxVy x y | subVxVy x y | subnVxVy x y | shrVxVy x y | shlVxVy x y =>
      cases h
      have hr := State.eq_or_eq_of_setResultAndFlag_reg_ne hne
      exact .inl ⟨x, y, by simp, hr⟩
    case ldVxVy x y | orVxVy x y | andVxVy x y | xorVxVy x y =>
      cases h
      have hr := State.eq_of_setReg_reg_ne hne
      exact .inr (.inl ⟨x, y, by simp, hr⟩)
    case ldVxByte x nn | addVxByte x nn =>
      cases h
      exact .inr (.inr (.inl ⟨x, nn, by simp, State.eq_of_setReg_reg_ne hne⟩))
    case rndVxByte x nn =>
      cases h
      have hV : s.drawByte.2.reg r = s.reg r := by rw [State.drawByte_state]; rfl
      rw [← hV] at hne
      exact .inr (.inr (.inl ⟨x, nn, by simp, State.eq_of_setReg_reg_ne hne⟩))
    case ldVxDT x =>
      cases h
      rw [State.eq_of_setReg_reg_ne hne]
      exact .inr (.inr (.inr (.inl rfl)))
    case drwVxVyNibble x y n =>
      rcases exec_drw_cases h with ⟨-, rfl⟩ | ⟨-, -, rfl⟩
      · have hr := State.eq_of_setReg_reg_ne (s := s.setDISP _) hne
        exact .inr (.inr (.inr (.inr (.inl ⟨x, y, n, rfl, hr⟩))))
      · exact absurd rfl hne
    case ldVxMem x =>
      rcases State.accessing_cases h with ⟨-, rfl⟩ | ⟨-, rfl⟩
      · have hr := State.le_of_loadRegs_reg_ne (Memory.length_readBytes _ _ _) hne
        exact .inr (.inr (.inr (.inr (.inr (.inr ⟨x, rfl, hr⟩)))))
      · exact absurd rfl hne
    all_goals exact absurd (congrArg (State.reg · r) hf) hne

/-! ### Timers and keys -/

/-- The state with its timers and its keypad changed. -/
def State.mapIO (fd fs : Byte → Byte) (fk : Vector Bool 16 → Vector Bool 16) (s : State) : State :=
  { s with DT := fd s.DT, ST := fs s.ST, KEY := fk s.KEY }

section
variable {fd fs : Byte → Byte} {fk : Vector Bool 16 → Vector Bool 16}

/-- A range-checked access sees neither timers nor keys. -/
theorem State.accessing_mapIO {s done t : State} {a len : Nat} (h : s.accessing a len done = .next t) :
    (s.mapIO fd fs fk).accessing a len (done.mapIO fd fs fk) = .next (t.mapIO fd fs fk) := by
  rcases State.accessing_cases h with ⟨hin, rfl⟩ | ⟨hout, rfl⟩
  · exact State.accessing_inside hin
  · exact State.accessing_outside hout

theorem State.loadRegs_mapIO (s : State) (k : Nat) (bs : List Byte) :
    (s.mapIO fd fs fk).loadRegs k bs = (s.loadRegs k bs).mapIO fd fs fk := by
  induction bs generalizing s k with
  | nil => rfl
  | cons b bs ih => exact ih (s.setReg (nibble k) b) (k + 1)

theorem State.skipIf_mapIO (s : State) (c : Bool) :
    (s.mapIO fd fs fk).skipIf c = (s.skipIf c).mapIO fd fs fk := by
  cases c <;> rfl

theorem State.drawByte_mapIO (s : State) :
    (s.mapIO fd fs fk).drawByte = (s.drawByte.1, s.drawByte.2.mapIO fd fs fk) := by
  rcases hr : s.randInput with _ | ⟨b, bs⟩
  · rw [State.drawByte_nil hr]; exact State.drawByte_nil hr
  · rw [State.drawByte_cons hr]; exact State.drawByte_cons hr

/-- With the timers and the keypad changed, an instruction does the same and leaves them changed alike, where a timer or
keypad that it reads or writes is not among the changed ones. -/
theorem exec_mapIO {i : Instr} {s t : State} (h : exec i s = .next t)
    (hDT : ∀ x, i = .ldVxDT x ∨ i = .ldDTVx x → fd = id) (hST : ∀ x, i = .ldSTVx x → fs = id)
    (hKEY : ∀ x, i = .skpVx x ∨ i = .sknpVx x → fk = id) :
    exec i (s.mapIO fd fs fk) = .next (t.mapIO fd fs fk) := by
  cases i
  case ret =>
    rcases exec_ret_cases h with ⟨h0, rfl⟩ | ⟨h0, h16, rfl⟩
    · exact exec_ret_underflow h0
    · exact exec_ret_pop h0 h16
  case callAddr a =>
    rcases exec_callAddr_cases h with ⟨heq, rfl⟩ | ⟨hlt, rfl⟩
    · exact exec_callAddr_overflow a heq
    · exact exec_callAddr_push a hlt
  case drwVxVyNibble =>
    rcases exec_drw_cases h with ⟨hin, rfl⟩ | ⟨h0, hout, rfl⟩
    · exact exec_drw_inside hin
    · exact exec_drw_outside h0 hout
  case ldBVx => exact State.accessing_mapIO h
  case ldMemVx => exact State.accessing_mapIO h
  case ldVxMem x =>
    have := State.accessing_mapIO (fd := fd) (fs := fs) (fk := fk) h
    rw [loadRegs_params_eq, ← State.loadRegs_mapIO] at this
    exact this
  case rndVxByte x nn =>
    cases h
    rw [exec, execRndVxByte, State.drawByte_mapIO]
    rfl
  case ldVxDT x =>
    cases h; obtain rfl := hDT x (.inl rfl); rfl
  case ldDTVx x =>
    cases h; obtain rfl := hDT x (.inr rfl); rfl
  case ldSTVx x =>
    cases h; obtain rfl := hST x rfl; rfl
  case skpVx x =>
    cases h; obtain rfl := hKEY x (.inl rfl); exact congrArg _ (State.skipIf_mapIO s _)
  case sknpVx x =>
    cases h; obtain rfl := hKEY x (.inr rfl); exact congrArg _ (State.skipIf_mapIO s _)
  case seVxByte | sneVxByte | seVxVy | sneVxVy =>
    cases h; exact congrArg _ (State.skipIf_mapIO s _)
  all_goals cases h; rfl

end

/-- Settles O51: changing one timer is `State.mapIO`, and FX15 and FX18 overwrite the timer they write. -/
theorem timersAreReadOnlyByTheirReader : Obligations.TimersAreReadOnlyByTheirReader := by
  intro i s t v h
  refine ⟨fun hw => ?_, fun x hi => ?_, fun hw hr => ?_, fun x hi => ?_⟩
  · exact exec_mapIO (fd := id) (fs := fun _ => v) (fk := id) h (fun _ _ => rfl) (fun x hi => absurd hi (hw x))
      (fun _ _ => rfl)
  · subst hi; cases h; rfl
  · exact exec_mapIO (fd := fun _ => v) (fs := id) (fk := id) h
      (fun x hi => (hi.elim (hr x) (hw x)).elim) (fun _ _ => rfl) (fun _ _ => rfl)
  · subst hi; cases h; rfl

/-- Settles O52: changing the keys is `State.mapIO`. -/
theorem keysAreReadOnlyByTheKeySkips : Obligations.KeysAreReadOnlyByTheKeySkips := by
  intro i s t keys h hp hn
  exact exec_mapIO (fd := id) (fs := id) (fk := fun _ => keys) h (fun _ _ => rfl) (fun _ _ => rfl)
    (fun x hi => (hi.elim (hp x) (hn x)).elim)

end Machine
end Sys2Proof
end

section
/-! SUPPORT. FX55 completed, said once: the state it leaves and the bytes memory then holds (45_memory_block.md R109), and
the fetch of a stored word (20_memory.md R50). -/

namespace Sys2Proof.Machine

/-- FX55 with its range inside memory writes the block at `I` and nothing else (R109; `I` as log entry 1 has it). -/
theorem exec_ldMemVx_inside {x : Reg} {s : State} (h : s.I.toNat + x.val < 4096) :
    exec (.ldMemVx x) s = .next (s.setMEM (s.MEM.writeBytes s.I.toNat (s.regsUpTo x))) :=
  State.accessing_inside (by rw [State.indexAddr]; omega)

/-- Memory with the block V0..Vx written at `a` holds register `k` at `a + k`. -/
theorem State.read_writeBytes_regsUpTo (s : State) (m : Memory) (a : Nat) {x k : Reg} (h : k.val ≤ x.val) :
    (m.writeBytes a (s.regsUpTo x)).read (a + k.val) = s.reg k := by
  rw [Memory.read_writeBytes, if_pos (by rw [State.length_regsUpTo]; omega), Nat.add_sub_cancel_left,
    State.getD_regsUpTo s x k h]

/-- Settles O13: the fetch reads the addresses `I + k` and `I + l` of the block, where FX55 stored registers `k` and `l`. -/
theorem nextFetchSeesTheStore : Obligations.NextFetchSeesTheStore := by
  intro s x k l p hin hl hlx hp
  refine ⟨_, exec_ldMemVx_inside hin, ?_⟩
  have hp1 : p.toNat + 1 = s.I.toNat + l.val := by omega
  rw [State.fetch_inside (by rw [hp1]; omega)]
  simp only [State.setMEM_MEM]
  rw [hp1, hp, State.read_writeBytes_regsUpTo s _ _ (by omega), State.read_writeBytes_regsUpTo s _ _ hlx]

end Sys2Proof.Machine
end

section
/-! SUPPORT. Decode and encode against each other and against the opcode map, said once for all 34 instructions: what a
word that matches an instruction's row decodes to, the operands read back from an encoding, and the word written back from
what was decoded (30_encoding.md R53 to R60). -/

namespace Sys2Proof

/-! ### From an instruction to its word -/

/-- The instruction with its operands replaced by the fields of a word (30_encoding.md R53, R54). -/
def Instr.withOperandsOf (w : Word) : Instr → Instr
  | .cls => .cls
  | .ret => .ret
  | .jpAddr _ => .jpAddr (fieldNNN w)
  | .callAddr _ => .callAddr (fieldNNN w)
  | .seVxByte _ _ => .seVxByte (fieldX w) (fieldNN w)
  | .sneVxByte _ _ => .sneVxByte (fieldX w) (fieldNN w)
  | .seVxVy _ _ => .seVxVy (fieldX w) (fieldY w)
  | .ldVxByte _ _ => .ldVxByte (fieldX w) (fieldNN w)
  | .addVxByte _ _ => .addVxByte (fieldX w) (fieldNN w)
  | .ldVxVy _ _ => .ldVxVy (fieldX w) (fieldY w)
  | .orVxVy _ _ => .orVxVy (fieldX w) (fieldY w)
  | .andVxVy _ _ => .andVxVy (fieldX w) (fieldY w)
  | .xorVxVy _ _ => .xorVxVy (fieldX w) (fieldY w)
  | .addVxVy _ _ => .addVxVy (fieldX w) (fieldY w)
  | .subVxVy _ _ => .subVxVy (fieldX w) (fieldY w)
  | .shrVxVy _ _ => .shrVxVy (fieldX w) (fieldY w)
  | .subnVxVy _ _ => .subnVxVy (fieldX w) (fieldY w)
  | .shlVxVy _ _ => .shlVxVy (fieldX w) (fieldY w)
  | .sneVxVy _ _ => .sneVxVy (fieldX w) (fieldY w)
  | .ldIAddr _ => .ldIAddr (fieldNNN w)
  | .jpV0Addr _ => .jpV0Addr (fieldNNN w)
  | .rndVxByte _ _ => .rndVxByte (fieldX w) (fieldNN w)
  | .drwVxVyNibble _ _ _ => .drwVxVyNibble (fieldX w) (fieldY w) (fieldN w)
  | .skpVx _ => .skpVx (fieldX w)
  | .sknpVx _ => .sknpVx (fieldX w)
  | .ldVxDT _ => .ldVxDT (fieldX w)
  | .ldVxK _ => .ldVxK (fieldX w)
  | .ldDTVx _ => .ldDTVx (fieldX w)
  | .ldSTVx _ => .ldSTVx (fieldX w)
  | .addIVx _ => .addIVx (fieldX w)
  | .ldFVx _ => .ldFVx (fieldX w)
  | .ldBVx _ => .ldBVx (fieldX w)
  | .ldMemVx _ => .ldMemVx (fieldX w)
  | .ldVxMem _ => .ldVxMem (fieldX w)

@[simp] theorem Instr.row_withOperandsOf (w : Word) (i : Instr) : (i.withOperandsOf w).row = i.row := by
  cases i <;> rfl

/-- A word that matches an instruction's row decodes to that instruction with the word's operands: the row's fixed bits are
the selectors of the decoder (R55, R56). -/
theorem decode_of_row_admits {i : Instr} {w : Word} (h : i.row.admits w = true) :
    decode w = .instr (i.withOperandsOf w) := by
  cases i
  case cls | ret =>
    rw [admits_FFFF.mp h]
    rfl
  case seVxVy | sneVxVy =>
    obtain ⟨hG, hN⟩ := (admits_F00F (by decide)).mp h
    simp only [decode, hG, decode5, decode9, hN]
    rfl
  case ldVxVy | orVxVy | andVxVy | xorVxVy | addVxVy | subVxVy | shrVxVy | subnVxVy | shlVxVy =>
    obtain ⟨hG, hN⟩ := (admits_F00F (by decide)).mp h
    simp only [decode, hG, decode8, hN]
    rfl
  case skpVx | sknpVx =>
    obtain ⟨hG, hNN⟩ := (admits_F0FF (by decide)).mp h
    simp only [decode, hG, decodeE, hNN]
    rfl
  case ldVxDT | ldVxK | ldDTVx | ldSTVx | addIVx | ldFVx | ldBVx | ldMemVx | ldVxMem =>
    obtain ⟨hG, hNN⟩ := (admits_F0FF (by decide)).mp h
    simp only [decode, hG, decodeF, hNN]
    rfl
  all_goals
    have hG := (admits_F000 (by decide)).mp h
    simp only [decode, hG]
    rfl

/-! The operands of the five encoded forms, read back from a word with the form's fixed bits `p` (R53, R54). -/

section
variable {p : Nat}

theorem fields_of_bitsNNN (hp : p % 0x1000 = 0) {a : Addr} (ha : addrFits a = true) :
    fieldNNN (BitVec.ofNat 16 (p + bitsNNN a)) = a := by
  have ha : a.toNat < 4096 := of_decide_eq_true ha
  refine BitVec.eq_of_toNat_eq ?_
  simp only [fieldNNN, bitsNNN, BitVec.toNat_ofNat]
  omega

theorem fields_of_bitsXNN (hp : p % 0x1000 = 0) (x : Reg) (nn : Byte) :
    fieldX (BitVec.ofNat 16 (p + bitsXNN x nn)) = x ∧ fieldNN (BitVec.ofNat 16 (p + bitsXNN x nn)) = nn := by
  refine ⟨Fin.ext ?_, BitVec.eq_of_toNat_eq ?_⟩
  all_goals
    simp only [fieldX, fieldNN, bitsXNN, val_nibble, BitVec.toNat_ofNat]
    omega

theorem fields_of_bitsXY (hp : p % 0x1000 < 0x10) (x y : Reg) :
    fieldX (BitVec.ofNat 16 (p + bitsXY x y)) = x ∧ fieldY (BitVec.ofNat 16 (p + bitsXY x y)) = y := by
  refine ⟨Fin.ext ?_, Fin.ext ?_⟩
  all_goals
    simp only [fieldX, fieldY, bitsXY, val_nibble, BitVec.toNat_ofNat]
    omega

theorem fields_of_bitsXYN (hp : p % 0x1000 = 0) (x y : Reg) {n : Nat} (hn : heightFits n = true) :
    fieldX (BitVec.ofNat 16 (p + (bitsXY x y + n % 0x10))) = x ∧
      fieldY (BitVec.ofNat 16 (p + (bitsXY x y + n % 0x10))) = y ∧
      fieldN (BitVec.ofNat 16 (p + (bitsXY x y + n % 0x10))) = n := by
  have hn : n < 16 := of_decide_eq_true hn
  refine ⟨Fin.ext ?_, Fin.ext ?_, ?_⟩
  all_goals
    simp only [fieldX, fieldY, fieldN, bitsXY, val_nibble, BitVec.toNat_ofNat]
    omega

theorem fields_of_bitsX (hp : p % 0x1000 < 0x100) (x : Reg) : fieldX (BitVec.ofNat 16 (p + bitsX x)) = x := by
  refine Fin.ext ?_
  simp only [fieldX, bitsX, val_nibble, BitVec.toNat_ofNat]
  omega

end

/-- The operands of a well-formed instruction are the fields of its word. -/
theorem Instr.withOperandsOf_encode {i : Instr} (h : i.wellFormed = true) : i.withOperandsOf (encode i) = i := by
  cases i <;> simp only [Instr.withOperandsOf, encode, Instr.row, Instr.operandBits]
  case jpAddr | callAddr | ldIAddr | jpV0Addr =>
    rw [fields_of_bitsNNN _ h]; decide
  case seVxByte | sneVxByte | ldVxByte | addVxByte | rndVxByte =>
    simp (disch := decide) only [fields_of_bitsXNN]
  case drwVxVyNibble x y n =>
    simp only [fields_of_bitsXYN (p := (0xD000 : Word).toNat) rfl x y h]
  case skpVx | sknpVx | ldVxDT | ldVxK | ldDTVx | ldSTVx | addIVx | ldFVx | ldBVx | ldMemVx | ldVxMem =>
    simp (disch := decide) only [fields_of_bitsX]
  all_goals simp (disch := decide) only [fields_of_bitsXY]

open Laws.EncodesItsRow in
/-- Each instruction's row is in the opcode map, and the word of a well-formed instruction matches its row (R56). -/
theorem encodesItsRow : ∀ i : Instr, Laws.EncodesItsRow.Statement i
  | .cls => cls
  | .ret => ret
  | .jpAddr a => jpAddr a
  | .callAddr a => callAddr a
  | .seVxByte x nn => seVxByte x nn
  | .sneVxByte x nn => sneVxByte x nn
  | .seVxVy x y => seVxVy x y
  | .ldVxByte x nn => ldVxByte x nn
  | .addVxByte x nn => addVxByte x nn
  | .ldVxVy x y => ldVxVy x y
  | .orVxVy x y => orVxVy x y
  | .andVxVy x y => andVxVy x y
  | .xorVxVy x y => xorVxVy x y
  | .addVxVy x y => addVxVy x y
  | .subVxVy x y => subVxVy x y
  | .shrVxVy x y => shrVxVy x y
  | .subnVxVy x y => subnVxVy x y
  | .shlVxVy x y => shlVxVy x y
  | .sneVxVy x y => sneVxVy x y
  | .ldIAddr a => ldIAddr a
  | .jpV0Addr a => jpV0Addr a
  | .rndVxByte x nn => rndVxByte x nn
  | .drwVxVyNibble x y n => drwVxVyNibble x y n
  | .skpVx x => skpVx x
  | .sknpVx x => sknpVx x
  | .ldVxDT x => ldVxDT x
  | .ldVxK x => ldVxK x
  | .ldDTVx x => ldDTVx x
  | .ldSTVx x => ldSTVx x
  | .addIVx x => addIVx x
  | .ldFVx x => ldFVx x
  | .ldBVx x => ldBVx x
  | .ldMemVx x => ldMemVx x
  | .ldVxMem x => ldVxMem x

/-- Settles O2: the word of a well-formed instruction matches the instruction's row, so it decodes to the instruction with
the word's operands, and those are its own. -/
theorem decodeOfEncodeIsTheInstruction : Obligations.DecodeOfEncodeIsTheInstruction := by
  intro i hi
  obtain ⟨-, hrow⟩ := encodesItsRow i
  rw [decode_of_row_admits (hrow hi), Instr.withOperandsOf_encode hi]

/-! ### From a word to the instruction it decodes to

The operands of the five encoded forms, written back to the word they are fields of. -/

section
variable {w : Word} {g n nn : Nat} (hG : fieldG w = g)
include hG

theorem ofNat_bitsNNN_fields : BitVec.ofNat 16 (0x1000 * g + bitsNNN (fieldNNN w)) = w := by
  rw [bitsNNN, Nat.mod_eq_of_lt (fieldNNN_lt w), ← hG, ← word_of_NNN]

theorem ofNat_bitsXNN_fields : BitVec.ofNat 16 (0x1000 * g + bitsXNN (fieldX w) (fieldNN w)) = w := by
  rw [bitsXNN, ← Nat.add_assoc, ← hG, ← word_of_XNN]

theorem ofNat_bitsXY_fields (hN : fieldN w = n) :
    BitVec.ofNat 16 (0x1000 * g + n + bitsXY (fieldX w) (fieldY w)) = w := by
  rw [bitsXY, Nat.add_right_comm, ← Nat.add_assoc, ← hG, ← hN, ← word_of_nibbles]

theorem ofNat_bitsXYN_fields :
    BitVec.ofNat 16 (0x1000 * g + (bitsXY (fieldX w) (fieldY w) + fieldN w % 0x10)) = w := by
  rw [bitsXY, Nat.mod_eq_of_lt (fieldN_lt w), ← Nat.add_assoc, ← Nat.add_assoc, ← hG, ← word_of_nibbles]

theorem ofNat_bitsX_fields (hNN : (fieldNN w).toNat = nn) :
    BitVec.ofNat 16 (0x1000 * g + nn + bitsX (fieldX w)) = w := by
  rw [bitsX, Nat.add_right_comm, ← hG, ← hNN, ← word_of_XNN]

end

section
variable {w : Word} {i : Instr}

theorem encode_of_decode0 (h : decode0 w = .instr i) : encode i = w := by
  unfold decode0 at h
  split at h
  case h_1 hw | h_2 hw => cases h; exact BitVec.eq_of_toNat_eq hw.symm
  case h_3 => cases h

theorem encode_of_decode5 (hG : fieldG w = 5) (h : decode5 w = .instr i) : encode i = w := by
  unfold decode5 at h
  split at h
  case h_1 hN => cases h; exact ofNat_bitsXY_fields hG hN
  case h_2 => cases h

theorem encode_of_decode8 (hG : fieldG w = 8) (h : decode8 w = .instr i) : encode i = w := by
  unfold decode8 at h
  split at h
  case h_10 => cases h
  all_goals cases h; exact ofNat_bitsXY_fields hG ‹fieldN w = _›

theorem encode_of_decode9 (hG : fieldG w = 9) (h : decode9 w = .instr i) : encode i = w := by
  unfold decode9 at h
  split at h
  case h_1 hN => cases h; exact ofNat_bitsXY_fields hG hN
  case h_2 => cases h

theorem encode_of_decodeE (hG : fieldG w = 14) (h : decodeE w = .instr i) : encode i = w := by
  unfold decodeE at h
  split at h
  case h_3 => cases h
  all_goals cases h; exact ofNat_bitsX_fields hG ‹(fieldNN w).toNat = _›

theorem encode_of_decodeF (hG : fieldG w = 15) (h : decodeF w = .instr i) : encode i = w := by
  unfold decodeF at h
  split at h
  case h_10 => cases h
  all_goals cases h; exact ofNat_bitsX_fields hG ‹(fieldNN w).toNat = _›

/-- A word that decodes to an instruction is its encoding: the selectors of the decoder are the row's fixed bits (R60). -/
theorem encode_of_decode (h : decode w = .instr i) : encode i = w := by
  unfold decode at h
  split at h
  case h_1 => exact encode_of_decode0 h
  case h_2 hG | h_3 hG | h_11 hG | h_12 hG => cases h; exact ofNat_bitsNNN_fields hG
  case h_4 hG | h_5 hG | h_7 hG | h_8 hG | h_13 hG => cases h; exact ofNat_bitsXNN_fields hG
  case h_6 hG => exact encode_of_decode5 hG h
  case h_9 hG => exact encode_of_decode8 hG h
  case h_10 hG => exact encode_of_decode9 hG h
  case h_14 hG => cases h; exact ofNat_bitsXYN_fields hG
  case h_15 hG => exact encode_of_decodeE hG h
  case h_16 hG => exact encode_of_decodeF hG h
  case h_17 => cases h

end

/-- Settles O3: the operands of a decoded instruction are fields of the word, and the encoding writes them back. -/
theorem encodeOfDecodeIsTheWord : Obligations.EncodeOfDecodeIsTheWord :=
  fun _ _ h => ⟨wellFormed_of_decode h, encode_of_decode h⟩

/-! ### The rows of the opcode map -/

/-- Rows that admit one word have the same fixed bits where both masks look. -/
theorem OpcodeRow.pattern_agrees_of_admits {p q : OpcodeRow} {w : Word} (hp : p.admits w = true)
    (hq : q.admits w = true) : p.pattern &&& q.mask = q.pattern &&& p.mask := by
  rw [OpcodeRow.admits, beq_iff_eq] at hp hq
  rw [← hp, ← hq, BitVec.and_assoc, BitVec.and_assoc, BitVec.and_comm p.mask]

/-- Two rows of the map with the same fixed bits where both masks look are one row. -/
theorem opcodeRows_disjoint :
    ∀ p ∈ opcodeRows, ∀ q ∈ opcodeRows, p.pattern &&& q.mask = q.pattern &&& p.mask → p = q := by decide

theorem OpcodeRow.eq_of_admits {p q : OpcodeRow} {w : Word} (hp : p ∈ opcodeRows) (hq : q ∈ opcodeRows)
    (hpw : p.admits w = true) (hqw : q.admits w = true) : p = q :=
  opcodeRows_disjoint p hp q hq (OpcodeRow.pattern_agrees_of_admits hpw hqw)

/-- Every row of the map is the row of an instruction, the one its fixed bits decode to. -/
theorem exists_row_eq {p : OpcodeRow} (hp : p ∈ opcodeRows) : ∃ i : Instr, i.row = p := by
  have hmap : ∀ q ∈ opcodeRows, (decodeTableWord 16 q.pattern.toNat).map Instr.row = some q := by decide
  obtain ⟨i, -, hi⟩ := Option.map_eq_some_iff.mp (hmap p hp)
  exact ⟨i, hi⟩

/-- Settles O4: rows are disjoint on the bits their masks share; the row of an instruction decodes to it with the word's
operands; and a word that decodes to an instruction is its encoding, which matches its row. -/
theorem decoderFollowsTheOpcodeMap : Obligations.DecoderFollowsTheOpcodeMap := by
  intro w
  refine ⟨fun p hp q hq => OpcodeRow.eq_of_admits hp hq, fun p hp hpw => ?_, fun hnone => ?_⟩
  · obtain ⟨i, rfl⟩ := exists_row_eq hp
    exact ⟨_, decode_of_row_admits hpw, i.row_withOperandsOf w⟩
  · rcases hd : decode w with i | u
    · obtain ⟨hmem, hrow⟩ := encodesItsRow i
      have hadm := hrow (wellFormed_of_decode hd)
      rw [encode_of_decode hd, hnone _ hmem] at hadm
      cases hadm
    · rw [decode_unknown_eq hd]

/-- Settles O1, by running the decoder on the seventeen words. -/
theorem wordsDecodeAsWritten : Obligations.WordsDecodeAsWritten := by
  unfold Obligations.WordsDecodeAsWritten
  decide

end Sys2Proof
end

section
/-! SUPPORT. The cycle, the engine states and the host's operations: which steps and host operations answer a next state,
that each keeps the invariant, and what a step from each engine state does (40_cycle.md R63 to R79). -/

namespace Sys2Proof.Machine

/-! ### The invariant under the host's operations -/

theorem State.Inv.setMEM {s : State} {m : Memory} (hs : s.Inv) (hm : m.wf = true) : (s.setMEM m).Inv :=
  ⟨hs.depth, hs.pcBound, hs.returns, hm, hs.error⟩

theorem State.Inv.setRandInput {s : State} (hs : s.Inv) (bs : List Byte) : (s.setRandInput bs).Inv :=
  ⟨hs.depth, hs.pcBound, hs.returns, hs.memory, hs.error⟩

theorem State.Inv.setKey {s : State} (hs : s.Inv) (k : Key) (p : Bool) : (s.setKey k p).Inv :=
  ⟨hs.depth, hs.pcBound, hs.returns, hs.memory, hs.error⟩

theorem State.Inv.tickTimers {s : State} (hs : s.Inv) : s.tickTimers.Inv :=
  ⟨hs.depth, hs.pcBound, hs.returns, hs.memory, hs.error⟩

/-- A ROM of at most 3584 bytes lies inside memory (70_reset_and_hazards.md R148). -/
theorem State.Inv.loadRom {s : State} {bytes : List Byte} (hs : s.Inv) (hl : bytes.length ≤ 4096 - 0x200) :
    (s.setMEM (s.MEM.writeBytes 0x200 bytes)).Inv :=
  hs.setMEM (Memory.wf_writeBytes hs.memory (by rw [Config.memSize]; omega))

/-- A step with the host's byte is a step between two changes of `randInput`, which the invariant does not see. -/
theorem State.Inv.stepWith {rand : Byte} {s t : State} (hs : s.Inv) (h : stepWith rand s = .next t) : t.Inv := by
  obtain ⟨u, hu, rfl⟩ := stepWith_cases h
  exact (stepKeepsTheInvariant _ u (hs.setRandInput [rand]) hu).setRandInput _

/-- Settles O58, by the ways a host operation can end in a next state. -/
theorem everyHostOperationKeepsTheInvariant : Obligations.EveryHostOperationKeepsTheInvariant := by
  intro h g op a hs hg
  rcases hostStep_cases hg with ⟨bytes, -, -, hl, rfl⟩ | ⟨bytes, -, -, -, rfl⟩ | ⟨rand, t, -, ht, rfl⟩ | ⟨-, rfl⟩ |
    ⟨k, p, -, rfl⟩ | ⟨-, rfl⟩
  · exact hs.loadRom hl
  · exact hs
  · exact hs.stepWith ht
  · exact hs.tickTimers
  · exact hs.setKey k p
  · exact hs

/-- Settles O16, by induction on how the host has brought the state about. -/
theorem everyReachableStateHasTheInvariant : Obligations.EveryReachableStateHasTheInvariant := by
  intro h hr
  induction hr with
  | created => exact invariantHoldsAtReset
  | operated _ hg ih => exact everyHostOperationKeepsTheInvariant _ _ _ _ ih hg
  | steppedFree _ ht ih => exact stepKeepsTheInvariant _ _ ih ht

/-! ### With a depth of at most 16 nothing stops the model -/

theorem State.exists_accessing_eq_next (s done : State) (a len : Nat) : ∃ t, s.accessing a len done = .next t := by
  by_cases h : a + len ≤ 4096
  · exact ⟨_, State.accessing_inside h⟩
  · exact ⟨_, State.accessing_outside (by omega)⟩

/-- Only a call and a return can stop, and only with SP above 16 (log entry 4). -/
theorem exists_exec_eq_next (i : Instr) {s : State} (hs : s.SP.toNat ≤ 16) : ∃ t, exec i s = .next t := by
  cases i
  case callAddr a =>
    rcases hs.lt_or_eq with hlt | heq
    · exact ⟨_, exec_callAddr_push a hlt⟩
    · exact ⟨_, exec_callAddr_overflow a heq⟩
  case ret =>
    rcases Nat.eq_zero_or_pos s.SP.toNat with h0 | h0
    · exact ⟨_, exec_ret_underflow h0⟩
    · exact ⟨_, exec_ret_pop h0 hs⟩
  case drwVxVyNibble x y n =>
    by_cases hin : n = 0 ∨ s.indexAddr + n ≤ 4096
    · exact ⟨_, exec_drw_inside hin⟩
    · obtain ⟨h0, hout⟩ := not_or.mp hin
      exact ⟨_, exec_drw_outside h0 (by omega)⟩
  case ldBVx | ldMemVx | ldVxMem => exact State.exists_accessing_eq_next _ _ _ _
  all_goals exact ⟨_, rfl⟩

theorem exists_step_eq_next {s : State} (hs : s.SP.toNat ≤ 16) : ∃ t, step s = .next t := by
  rcases he : s.engine with _ | r | e
  · by_cases hp : s.pc.toNat + 1 < 4096
    · rcases hd : decode s.wordAtPc with i | u
      · rw [step_of_instr he hp hd]
        exact exists_exec_eq_next i hs
      · exact ⟨_, step_of_unknown he hp hd⟩
    · exact ⟨_, step_of_fetch_outside he (by omega)⟩
  · exact ⟨_, step_of_waiting he⟩
  · exact ⟨_, step_of_faulted he⟩

/-- Settles O17: a step answers a next state since SP is a depth, an admitted load copies or fails, and the other operations
are total. -/
theorem everyHostOperationAnswersANextState : Obligations.EveryHostOperationAnswersANextState := by
  intro h op hs hload
  cases op with
  | load bytes =>
    have hp := hload bytes rfl
    by_cases hl : bytes.length ≤ 4096 - 0x200
    · exact ⟨_, _, hostStep_load_fits hp hl⟩
    · exact ⟨_, _, hostStep_load_too_large hp (by omega)⟩
  | step rand =>
    obtain ⟨t, ht⟩ := exists_step_eq_next (s := h.machine.setRandInput [rand]) hs.depth
    exact ⟨_, _, hostStep_step_next (stepWith_next ht)⟩
  | tickTimers | setKey | readDisplay | readSound | readStatus => exact ⟨_, _, rfl⟩

/-! ### One cycle in the Running state -/

/-- Settles O6, by where the fetch leaves memory and by what the word at `pc` decodes to. -/
theorem cycleFetchesAdvancesDecodesExecutes : Obligations.CycleFetchesAdvancesDecodesExecutes := by
  intro s hrun
  refine ⟨fun hpc => ?_, fun hpc => ?_, fun hpc w hw => ?_⟩
  · rw [step_of_fetch_outside hrun (by omega), Nat.max_eq_left hpc]
    rfl
  · rw [step_of_fetch_outside hrun (by omega), Nat.max_eq_right (by omega)]
    rfl
  · obtain rfl : w = s.wordAtPc := BitVec.eq_of_toNat_eq (by rw [hw, State.wordAtPc, toNat_bigEndian])
    exact ⟨fun i hd => step_of_instr hrun hpc hd, fun u hd => ⟨decode_unknown_eq hd, step_of_unknown hrun hpc hd⟩⟩

/-- Settles O5: the operands of a decoded instruction are fields of the word, and the step runs it after the advance. -/
theorem stepRunsTheDecodedInstruction : Obligations.StepRunsTheDecodedInstruction :=
  fun _ _ hrun hpc hd => ⟨wellFormed_of_decode hd, step_of_instr hrun hpc hd⟩

/-- Settles O10, by the ways a step from Running can end: the fetch failed, the word is Unknown, or the instruction raised
an error after the advance and did nothing else. -/
theorem errorsArePrecise : Obligations.ErrorsArePrecise := by
  intro s t e hrun h he
  rcases step_cases h with ⟨e', hf, -⟩ | ⟨r, hw, -⟩ | ⟨-, hpc, rfl⟩ | ⟨-, hpc, -, rfl⟩ | ⟨i, -, hpc, -, hex⟩
  · rw [hrun] at hf; cases hf
  · rw [hrun] at hw; cases hw
  · cases he
    exact ⟨rfl, .inl ⟨by omega, rfl⟩⟩
  · cases he
    exact ⟨rfl, .inr ⟨by omega, rfl⟩⟩
  · obtain ⟨kind, -, rfl⟩ := exec_faulted hex hrun he
    rw [State.raise_advanced] at he ⊢
    cases he
    exact ⟨rfl, .inr ⟨by omega, rfl⟩⟩

/-- The word `0x1000 | a` of a parked machine encodes the jump to `a` (40_cycle.md R79). -/
theorem or_eq_encode_jpAddr {a : Addr} (ha : a.toNat < 4096) : 0x1000 ||| a = encode (.jpAddr a) := by
  have hor : 0x1000 ||| a.toNat = 0x1000 + a.toNat := (Nat.two_pow_add_eq_or_of_lt (i := 12) ha 1).symm
  refine BitVec.eq_of_toNat_eq ?_
  rw [encode, BitVec.toNat_or, BitVec.toNat_ofNat]
  change 0x1000 ||| a.toNat = (0x1000 + a.toNat % 0x1000) % 65536
  omega

/-- Settles O12: the word at `pc` is a jump to `pc`, which undoes the advance. -/
theorem parkedStaysParked : Obligations.ParkedStaysParked := by
  rintro s ⟨hrun, hpc, hfetch⟩
  have hin : s.pc.toNat + 1 < 4096 := by
    by_contra hout
    rw [State.fetch_outside (by omega)] at hfetch
    cases hfetch
  have hd : decode s.wordAtPc = .instr (.jpAddr s.pc) := by
    rw [State.fetch_inside hin, Except.ok.injEq] at hfetch
    rw [State.wordAtPc, hfetch, or_eq_encode_jpAddr (by omega)]
    exact decodeOfEncodeIsTheInstruction _ (decide_eq_true (by omega))
  rw [step_of_instr hrun hin hd]
  rfl

/-- Settles O38: the byte is at hand in `randInput` when the step runs CXNN, which consumes it. -/
theorem randomByteIsTheStepsOperand : Obligations.RandomByteIsTheStepsOperand := by
  refine ⟨fun x nn => ?_, fun rand x nn s hrun hpc hd => ?_⟩
  · rw [Nat.add_assoc]
    exact decodeOfEncodeIsTheInstruction (.rndVxByte x nn) rfl
  · have hstep := step_of_instr (s := s.setRandInput [rand]) hrun hpc hd
    refine ⟨_, stepWith_next hstep, rfl, ?_, fun r hr => ?_⟩
    · exact (State.setReg_reg ..).trans (if_pos rfl)
    · exact (State.setReg_reg ..).trans (if_neg hr)

/-! ### The engine states -/

/-- The engine after a step from Running: Running, Faulted, or the wait that FX0A enters (40_cycle.md R72). -/
theorem step_engine_of_running {s t : State} (hrun : s.engine = .running) (h : step s = .next t) :
    t.engine = .running ∨ (∃ e, t.engine = .faulted e) ∨
      ∃ x, t.engine = .waitingForKey x ∧ decode s.wordAtPc = .instr (.ldVxK x) := by
  rcases step_cases h with ⟨e, hf, -⟩ | ⟨r, hw, -⟩ | ⟨-, -, rfl⟩ | ⟨-, -, -, rfl⟩ | ⟨i, -, -, hd, hex⟩
  · rw [hrun] at hf; cases hf
  · rw [hrun] at hw; cases hw
  · exact .inr (.inl ⟨_, rfl⟩)
  · exact .inr (.inl ⟨_, rfl⟩)
  · rcases exec_engine_cases hex with hkeep | ⟨kind, rfl⟩ | ⟨x, rfl, rfl⟩
    · exact .inl (hkeep.trans hrun)
    · exact .inr (.inl ⟨_, rfl⟩)
    · exact .inr (.inr ⟨x, rfl, hd⟩)

/-- The wait ends exactly when some key is pressed (47_input.md R123). -/
theorem waitStep_engine {s : State} {r : Reg} (hw : s.engine = .waitingForKey r) :
    (waitStep r s).engine = if ∃ k : Key, s.key k = true then .running else .waitingForKey r := by
  rcases s.leastPressed_cases with ⟨-, hn⟩ | ⟨k, -, hk, hl⟩
  · rw [waitStep_none hn, hw, if_neg (by simp [hn])]
  · rw [waitStep_some hk hl, if_pos ⟨k, hk⟩, State.setEngine_engine]

/-- Settles O9: from each engine state by what a step does there, and for the other operations by the ways they can end. -/
theorem engineTransitionsAreTheOnlyOnes : Obligations.EngineTransitionsAreTheOnlyOnes := by
  refine ⟨fun s t hrun h => step_engine_of_running hrun h, fun s x hrun hpc hd => ?_, fun s r hw => ?_,
    fun s e hf => ?_, fun h g op a hg hns => ?_⟩
  · exact ⟨_, step_of_instr hrun hpc hd, rfl⟩
  · exact ⟨_, step_of_waiting hw, waitStep_engine hw⟩
  · exact ⟨s, step_of_faulted hf, hf⟩
  · rcases hostStep_cases hg with ⟨bytes, -, -, -, rfl⟩ | ⟨bytes, -, -, -, rfl⟩ | ⟨rand, t, hop, -, -⟩ | ⟨-, rfl⟩ |
      ⟨k, p, -, rfl⟩ | ⟨-, rfl⟩
    · rfl
    · rfl
    · exact absurd hop (hns rand)
    · rfl
    · rfl
    · rfl

theorem State.result_of_faulted {s : State} {e : ErrorRecord} (h : s.engine = .faulted e) : s.result = .err e := by
  rw [State.result, h]

/-- Settles O7: the step of a faulted machine is the identity, with the host's byte at hand or not. -/
theorem faultedIsAbsorbing : Obligations.FaultedIsAbsorbing := by
  intro s e hf
  have hres := State.result_of_faulted hf
  refine ⟨step_of_faulted hf, hres, fun rand phase => ?_⟩
  have hset := step_of_faulted (s := s.setRandInput [rand]) hf
  have hstep : stepWith rand s = .next s := (stepWith_next hset :)
  rw [hostStep_step_next hstep, hres]

/-! ### The host's other operations -/

/-- Settles O54. -/
theorem setKeyWritesOneKey : Obligations.SetKeyWritesOneKey := by
  intro h k pressed
  refine ⟨h.machine.setKey k pressed, rfl, rfl, ?_, fun j hj => ?_⟩
  · rw [State.setKey_key, if_pos rfl]
  · rw [State.setKey_key, if_neg hj]

/-- Settles O56: the reads answer fields of the machine, and the tone is the test of ST against 0. -/
theorem readsChangeNothing : Obligations.ReadsChangeNothing :=
  fun _ => ⟨rfl, rfl, rfl, bne_iff_ne⟩

end Sys2Proof.Machine
end

section
/-! SUPPORT. Control flow, said once for the jumps, the call stack and the skips (41_control_flow.md R80 to R89): the
words of the NNN form, a push and a pop by the slot they name, and a skip by its condition. -/

namespace Sys2Proof

/-- The word of an NNN form, its fixed bits plus the address, decodes to the instruction (30_encoding.md R53, R54). -/
theorem decode_ofNat_NNN {i : Instr} {a : Addr} (hfits : i.wellFormed = addrFits a) (hbits : i.operandBits = bitsNNN a)
    (ha : a.toNat < 4096) : decode (BitVec.ofNat 16 (i.row.pattern.toNat + a.toNat)) = .instr i := by
  have henc : encode i = BitVec.ofNat 16 (i.row.pattern.toNat + a.toNat) := by
    rw [encode, hbits, bitsNNN, Nat.mod_eq_of_lt ha]
  rw [← henc]
  exact decodeOfEncodeIsTheInstruction i (hfits.trans (decide_eq_true ha))

/-- A group 5 word with N other than 0 is Unknown (R58). -/
theorem decode_group5_unknown {w : Word} (hG : fieldG w = 5) (hN : fieldN w ≠ 0) : decode w = .unknown w := by
  simp only [decode, hG]
  unfold decode5
  split
  case h_1 h0 => exact absurd h0 hN
  case h_2 => rfl

/-- A number below 16 names one index. -/
theorem eq_nibble_iff {k : Fin 16} {n : Nat} (h : n < 16) : k = nibble n ↔ k.val = n := by
  rw [Fin.ext_iff, val_nibble, Nat.mod_eq_of_lt h]

namespace Machine

/-! ### The call stack -/

/-- A push below depth 16 writes the slot SP names and no other (10_state.md R25, R26). -/
theorem State.push_slot {s : State} (h : s.SP.toNat < 16) (a : Addr) (k : Fin 16) :
    (s.push a).slot k = if k.val = s.SP.toNat then a else s.slot k := by
  simp only [State.push_eq, State.setSP_slot, State.setSlot_slot, eq_nibble_iff h]

/-- A push below depth 16 stores one address more. -/
theorem State.push_depth {s : State} (h : s.SP.toNat < 16) (a : Addr) : (s.push a).SP.toNat = s.SP.toNat + 1 := by
  rw [State.push_eq, State.setSP_SP]
  bv_omega

/-- A return at depth `k + 1` goes to the address in slot `k` (R82). -/
theorem exec_ret_at_depth {s : State} {k : Fin 16} (h : s.SP.toNat = k.val + 1) :
    exec .ret s = .next { s with SP := s.SP - 1, pc := s.slot k } := by
  have htop : nibble (s.SP.toNat - 1) = k := by rw [h, Nat.add_sub_cancel, nibble_val]
  rw [exec_ret_pop (by omega) (by omega), State.pop, htop]
  rfl

/-- Settles O19: a call pushes below depth 16 and overflows at it. -/
theorem callPushesTheReturnAddress : Obligations.CallPushesTheReturnAddress := by
  refine ⟨fun addr ha => decode_ofNat_NNN (i := .callAddr addr) rfl rfl ha, fun addr s h => ?_, fun addr s h => ?_⟩
  · exact ⟨_, exec_callAddr_push addr h, rfl, State.push_slot h s.pc⟩
  · exact ⟨s.pc - 2, exec_callAddr_overflow addr h⟩

/-- Settles O20: a return pops above depth 0 and underflows at it. -/
theorem returnPopsThePc : Obligations.ReturnPopsThePc :=
  ⟨rfl, fun _ _ h => exec_ret_at_depth h, fun s h => ⟨s.pc - 2, exec_ret_underflow h⟩⟩

/-- Settles O22: the return reads the slot the call wrote and takes SP back by the one the call added. -/
theorem callThenReturnComesBack : Obligations.CallThenReturnComesBack := by
  intro addr p s h
  obtain ⟨k, hk⟩ : ∃ k : Fin 16, k.val = s.SP.toNat := ⟨⟨_, h⟩, rfl⟩
  have hdepth : (s.push s.pc).SP.toNat = k.val + 1 := by rw [State.push_depth h, hk]
  have htop : (s.push s.pc).slot k = s.pc := by rw [State.push_slot h, if_pos hk]
  have hSP : (s.push s.pc).SP - 1 = s.SP := BitVec.add_sub_cancel s.SP 1
  have hback : { s.push s.pc with SP := (s.push s.pc).SP - 1, pc := (s.push s.pc).slot k } =
      { s with STACK := (s.push s.pc).STACK } := by
    rw [htop, hSP]
    rfl
  exact ⟨_, _, exec_callAddr_push addr h, exec_ret_at_depth hdepth, hback,
    fun j hj => (State.push_slot h s.pc j).trans (if_neg hj)⟩

/-- Settles O18. -/
theorem jumpSetsPcToTheAddress : Obligations.JumpSetsPcToTheAddress :=
  ⟨fun addr ha => decode_ofNat_NNN (i := .jpAddr addr) rfl rfl ha, fun _ _ => rfl⟩

/-! ### Skips -/

/-- A skip by its condition: taken, `pc` advances once more, and nothing else changes in either case (R85). -/
theorem State.skipIf_of_iff (s : State) {c : Bool} {p : Prop} [Decidable p] (h : c = true ↔ p) :
    s.skipIf c = { s with pc := if p then s.pc + 2 else s.pc } := by
  rw [State.skipIf_eq, State.setPc]
  simp only [h]

/-- A skip whose condition is stated by its negation. -/
theorem State.skipIf_of_iff_not (s : State) {c : Bool} {p : Prop} [Decidable p] (h : c = true ↔ ¬p) :
    s.skipIf c = { s with pc := if p then s.pc else s.pc + 2 } := by
  rw [s.skipIf_of_iff h, ite_not]

/-- Settles O25: N = 0 is the row of 5XY0, and the skip's condition is the equality of the registers. -/
theorem equalRegistersSkip : Obligations.EqualRegistersSkip := by
  refine ⟨fun x y => ?_, fun x y n h0 hn w hw => ?_, fun x y s => ?_⟩
  · rw [Nat.add_assoc]
    exact decodeOfEncodeIsTheInstruction (.seVxVy x y) rfl
  · have hword : w = BitVec.ofNat 16 (0x5000 + 0x100 * x.val + 0x10 * y.val + n) := by
      rw [← hw, BitVec.ofNat_toNat, BitVec.setWidth_eq]
    obtain ⟨hG, -, -, hN, -⟩ := fields_of_nibbles 5 x y ⟨n, hn⟩ hword
    exact decode_group5_unknown hG (by rw [hN]; exact h0.ne')
  · exact congrArg Host.Outcome.next (s.skipIf_of_iff beq_iff_eq)

/-- Settles O24: the skip's condition is the equality of the register and NN, or its negation. -/
theorem immediateSkips : Obligations.ImmediateSkips := by
  refine ⟨fun x nn => ?_, fun x nn s => ⟨?_, ?_⟩⟩
  · rw [Nat.add_assoc, Nat.add_assoc]
    exact ⟨decodeOfEncodeIsTheInstruction (.seVxByte x nn) rfl,
      decodeOfEncodeIsTheInstruction (.sneVxByte x nn) rfl⟩
  · exact congrArg Host.Outcome.next (s.skipIf_of_iff beq_iff_eq)
  · exact congrArg Host.Outcome.next (s.skipIf_of_iff_not bne_iff_ne)

/-- Settles O23: the sum of NNN and V0 fits the 16 bits of `pc`, a copy is a register write, and the skip's condition is
that the registers differ. -/
theorem jumpOffsetCopyAndUnequalSkip : Obligations.JumpOffsetCopyAndUnequalSkip := by
  refine ⟨fun addr ha => decode_ofNat_NNN (i := .jpV0Addr addr) rfl rfl ha, fun x y => ?_, fun x y => ?_,
    fun addr s ha => ⟨_, rfl, rfl, ?_⟩, fun x y s => ⟨_, rfl, rfl, ?_, fun r hr => ?_⟩, fun x y s => ?_⟩
  · rw [Nat.add_assoc]
    exact decodeOfEncodeIsTheInstruction (.ldVxVy x y) rfl
  · rw [Nat.add_assoc]
    exact decodeOfEncodeIsTheInstruction (.sneVxVy x y) rfl
  · have hV0 := (s.reg 0).isLt
    rw [State.setPc_pc, BitVec.toNat_ofNat, Nat.mod_eq_of_lt (by omega)]
  · rw [State.setReg_reg, if_pos rfl]
  · rw [State.setReg_reg, if_neg hr]
  · exact congrArg Host.Outcome.next (s.skipIf_of_iff_not bne_iff_ne)

end Machine

end Sys2Proof
end

section
/-! SUPPORT. The register operations, said once for all of them (42_register_ops.md R90 to R101): the words of the XNN and
XY forms, what a register write and a result with its flag leave in each register, and the results and flags as numbers. -/

namespace Sys2Proof

/-- The word of an XNN form, its fixed bits plus the operands, decodes to the instruction (30_encoding.md R53, R54). -/
theorem decode_ofNat_XNN {i : Instr} {x : Reg} {nn : Byte} (hfits : i.wellFormed = true)
    (hbits : i.operandBits = bitsXNN x nn) :
    decode (BitVec.ofNat 16 (i.row.pattern.toNat + 0x100 * x.val + nn.toNat)) = .instr i := by
  rw [Nat.add_assoc, ← bitsXNN, ← hbits]
  exact decodeOfEncodeIsTheInstruction i hfits

/-- The word of an XY form, its fixed bits plus the operands, decodes to the instruction (R53, R54). -/
theorem decode_ofNat_XY {i : Instr} {x y : Reg} (hfits : i.wellFormed = true) (hbits : i.operandBits = bitsXY x y) :
    decode (BitVec.ofNat 16 (i.row.pattern.toNat + 0x100 * x.val + 0x10 * y.val)) = .instr i := by
  rw [Nat.add_assoc, ← bitsXY, ← hbits]
  exact decodeOfEncodeIsTheInstruction i hfits

namespace Machine

/-! ### What a write leaves in each register -/

theorem State.setReg_reg_self (s : State) (x : Reg) (v : Byte) : (s.setReg x v).reg x = v := by
  rw [State.setReg_reg, if_pos rfl]

theorem State.setReg_reg_of_ne (s : State) (x : Reg) (v : Byte) (r : Reg) (h : r ≠ x) :
    (s.setReg x v).reg r = s.reg r := by
  rw [State.setReg_reg, if_neg h]

/-- The flag is in VF whatever X is, for it is written last (R90). -/
theorem State.setResultAndFlag_reg_VF (s : State) (x : Reg) (v f : Byte) : (s.setResultAndFlag x v f).reg VF = f :=
  State.setReg_reg_self ..

theorem State.setResultAndFlag_reg_self (s : State) {x : Reg} (v f : Byte) (h : x ≠ VF) :
    (s.setResultAndFlag x v f).reg x = v := by
  rw [State.setResultAndFlag_reg, if_neg h, if_pos rfl]

theorem State.setResultAndFlag_reg_of_ne (s : State) (x : Reg) (v f : Byte) (r : Reg) (hx : r ≠ x) (hVF : r ≠ VF) :
    (s.setResultAndFlag x v f).reg r = s.reg r := by
  rw [State.setResultAndFlag_reg, if_neg hVF, if_neg hx]

/-! ### Results and flags as numbers -/

theorem toNat_addBytes (a b : Byte) : (addBytes a b).toNat = (a.toNat + b.toNat) % 256 := BitVec.toNat_ofNat ..

/-- The subtrahend is at most 255, so the 256 added keeps the difference from being cut off at 0 (R98). -/
theorem toNat_subBytes (m n : Byte) : ((subBytes m n).toNat : Int) = (m.toNat - n.toNat + 256 : Int) % 256 := by
  rw [subBytes, BitVec.toNat_ofNat]
  omega

theorem boolByte_decide (p : Prop) [Decidable p] : boolByte (decide p) = if p then 1 else 0 := by
  simp only [boolByte, decide_eq_true_eq]

theorem toNat_shiftRightByte (v : Byte) : (shiftRightByte v).toNat = v.toNat / 2 := by
  rw [shiftRightByte, BitVec.toNat_ushiftRight, Nat.shiftRight_one]

theorem toNat_shiftedOutRight (v : Byte) : (shiftedOutRight v).toNat = v.toNat % 2 :=
  (BitVec.toNat_and ..).trans (Nat.and_one_is_mod _)

theorem toNat_shiftLeftByte (v : Byte) : (shiftLeftByte v).toNat = 2 * v.toNat % 256 := by
  rw [shiftLeftByte, BitVec.toNat_ofNat, Nat.mul_comm]

/-- Above bit 7 a byte has none, so what a shift by 7 leaves is the bit itself (R101). -/
theorem toNat_shiftedOutLeft (v : Byte) : (shiftedOutLeft v).toNat = v.toNat / 128 := by
  have hbit : (shiftedOutLeft v).toNat = (v.toNat >>> 7) % 2 := (BitVec.toNat_and ..).trans (Nat.and_one_is_mod _)
  rw [hbit, Nat.shiftRight_eq_div_pow]
  omega

theorem State.shiftOperand_eq (source : ShiftSource) (x y : Reg) (s : State) :
    s.shiftOperand source x y = if source = .vx then s.reg x else s.reg y := by
  cases source <;> rfl

/-! ### The operations -/

/-- Settles O27: each writes Vx alone, with NN or with the sum modulo 256. -/
theorem setAndAddImmediate : Obligations.SetAndAddImmediate := by
  refine ⟨fun x nn => ⟨decode_ofNat_XNN (i := .ldVxByte x nn) rfl rfl, decode_ofNat_XNN (i := .addVxByte x nn) rfl rfl⟩,
    fun x nn s => ⟨⟨_, rfl, rfl, ?_, s.setReg_reg_of_ne x _⟩, ⟨_, rfl, rfl, ?_, s.setReg_reg_of_ne x _⟩⟩⟩
  · exact s.setReg_reg_self x nn
  · rw [State.setReg_reg_self, toNat_addBytes]

/-- Settles O28: each writes Vx alone, and its bits are those of the library's OR, AND and XOR. -/
theorem bitwiseOperationsLeaveVFAlone : Obligations.BitwiseOperationsLeaveVFAlone := by
  refine ⟨fun x y => ⟨decode_ofNat_XY (i := .orVxVy x y) rfl rfl, decode_ofNat_XY (i := .andVxVy x y) rfl rfl,
    decode_ofNat_XY (i := .xorVxVy x y) rfl rfl⟩, fun x y s => ⟨⟨_, rfl, rfl, fun b => ?_, s.setReg_reg_of_ne x _⟩,
    ⟨_, rfl, rfl, fun b => ?_, s.setReg_reg_of_ne x _⟩, ⟨_, rfl, rfl, fun b => ?_, s.setReg_reg_of_ne x _⟩⟩⟩
  · rw [State.setReg_reg_self, BitVec.getLsbD_or]
  · rw [State.setReg_reg_self, BitVec.getLsbD_and]
  · rw [State.setReg_reg_self, BitVec.getLsbD_xor]

/-- Settles O29: the sum goes to Vx and the carry to VF after it. -/
theorem addSetsTheCarry : Obligations.AddSetsTheCarry := by
  refine ⟨fun x y => decode_ofNat_XY (i := .addVxVy x y) rfl rfl,
    fun x y s => ⟨_, rfl, rfl, ?_, fun hx => ?_, s.setResultAndFlag_reg_of_ne x _ _⟩⟩
  · rw [State.setResultAndFlag_reg_VF, carryFlag, boolByte_decide]
  · rw [s.setResultAndFlag_reg_self _ _ hx, toNat_addBytes]

/-- A difference in Vx and its no-borrow flag in VF, whichever operand is the minuend (R98, R99). -/
theorem State.setResultAndFlag_difference (s : State) (x : Reg) (m n : Byte) :
    ((s.setResultAndFlag x (subBytes m n) (noBorrowFlag m n)).reg VF = if m.toNat ≥ n.toNat then 1 else 0) ∧
    (x ≠ VF → (((s.setResultAndFlag x (subBytes m n) (noBorrowFlag m n)).reg x).toNat : Int) =
      (m.toNat - n.toNat + 256 : Int) % 256) ∧
    ∀ r : Reg, r ≠ x → r ≠ VF → (s.setResultAndFlag x (subBytes m n) (noBorrowFlag m n)).reg r = s.reg r := by
  refine ⟨?_, fun hx => ?_, s.setResultAndFlag_reg_of_ne x _ _⟩
  · rw [State.setResultAndFlag_reg_VF, noBorrowFlag, boolByte_decide]
  · rw [s.setResultAndFlag_reg_self _ _ hx, toNat_subBytes]

/-- Settles O30: the minuend is Vx. -/
theorem subtractSetsNoBorrow : Obligations.SubtractSetsNoBorrow :=
  ⟨fun x y => decode_ofNat_XY (i := .subVxVy x y) rfl rfl,
    fun x y s => ⟨_, rfl, rfl, s.setResultAndFlag_difference x (s.reg x) (s.reg y)⟩⟩

/-- Settles O31: the minuend is Vy. -/
theorem reverseSubtractSetsNoBorrow : Obligations.ReverseSubtractSetsNoBorrow :=
  ⟨fun x y => decode_ofNat_XY (i := .subnVxVy x y) rfl rfl,
    fun x y s => ⟨_, rfl, rfl, s.setResultAndFlag_difference x (s.reg y) (s.reg x)⟩⟩

/-- Settles O32: half of the shifted value goes to Vx and the bit shifted out to VF after it. -/
theorem shiftRightSetsTheBitShiftedOut : Obligations.ShiftRightSetsTheBitShiftedOut := by
  refine ⟨fun x y => decode_ofNat_XY (i := .shrVxVy x y) rfl rfl, rfl, fun _ _ _ => rfl, ?_⟩
  rintro source x y s _ rfl
  rw [← State.shiftOperand_eq]
  refine ⟨rfl, ?_, fun hx => ?_, s.setResultAndFlag_reg_of_ne x _ _⟩
  · rw [shrWith, State.setResultAndFlag_reg_VF, toNat_shiftedOutRight]
  · rw [shrWith, s.setResultAndFlag_reg_self _ _ hx, toNat_shiftRightByte]

/-- Settles O33: the double of the shifted value goes to Vx and the bit shifted out to VF after it. -/
theorem shiftLeftSetsTheBitShiftedOut : Obligations.ShiftLeftSetsTheBitShiftedOut := by
  refine ⟨fun x y => decode_ofNat_XY (i := .shlVxVy x y) rfl rfl, rfl, fun _ _ _ => rfl, ?_⟩
  rintro source x y s _ rfl
  rw [← State.shiftOperand_eq]
  refine ⟨rfl, ?_, fun hx => ?_, s.setResultAndFlag_reg_of_ne x _ _⟩
  · rw [shlWith, State.setResultAndFlag_reg_VF, toNat_shiftedOutLeft]
  · rw [shlWith, s.setResultAndFlag_reg_self _ _ hx, toNat_shiftLeftByte]

end Machine

end Sys2Proof
end

section
/-! SUPPORT. The index register, said once for its three instructions (43_index.md R103 to R105): the words of the X form,
the sum of `I` and a register as a number and its flag, and where a glyph lies. -/

namespace Sys2Proof

/-- The word of an X form, its fixed bits plus the register, decodes to the instruction (30_encoding.md R53, R54). -/
theorem decode_ofNat_X {i : Instr} {x : Reg} (hfits : i.wellFormed = true) (hbits : i.operandBits = bitsX x) :
    decode (BitVec.ofNat 16 (i.row.pattern.toNat + 0x100 * x.val)) = .instr i := by
  rw [← bitsX, ← hbits]
  exact decodeOfEncodeIsTheInstruction i hfits

namespace Machine

/-- Settles O34: the word is the NNN form's, and the instruction writes `I` alone. -/
theorem setIndexRegister : Obligations.SetIndexRegister :=
  ⟨fun addr ha => decode_ofNat_NNN (i := .ldIAddr addr) rfl rfl ha, fun _ _ => rfl⟩

/-! ### The sum of `I` and a register -/

/-- Whatever the parameter says of VF, `I` is the sum modulo 65536 (R104). -/
theorem toNat_addIWith_I (setsVF : Bool) (x : Reg) (s : State) :
    (addIWith setsVF x s).I.toNat = (s.I.toNat + (s.reg x).toNat) % 65536 := by
  cases setsVF <;> exact BitVec.toNat_ofNat ..

/-- With I_ADD_SETS_VF true the flag is the test of the exact sum against the last address (R104). -/
theorem addIWith_true_reg_VF (x : Reg) (s : State) :
    (addIWith true x s).reg VF = if s.I.toNat + (s.reg x).toNat > 0x0FFF then 1 else 0 := by
  rw [addIWith, if_pos rfl, State.setReg_reg_self, pastAddressSpaceFlag, boolByte_decide]

theorem addIWith_true_reg_of_ne (x : Reg) (s : State) {r : Reg} (h : r ≠ VF) :
    (addIWith true x s).reg r = s.reg r :=
  State.setReg_reg_of_ne _ VF _ r h

/-- Settles O35: without the flag the operation writes `I` alone, with it VF too. -/
theorem addToIndexRegister : Obligations.AddToIndexRegister :=
  ⟨fun x => decode_ofNat_X (i := .addIVx x) rfl rfl, rfl, fun _ _ => rfl, fun x s =>
    ⟨⟨_, rfl, rfl, toNat_addIWith_I false x s⟩,
      ⟨_, rfl, rfl, toNat_addIWith_I true x s, addIWith_true_reg_VF x s, fun _ => addIWith_true_reg_of_ne x s⟩⟩⟩

/-! ### The glyphs -/

/-- A glyph's address is exact: the last glyph starts at 0x09B, so the 16 bits of `I` cut nothing off (R105). -/
theorem toNat_glyphAddr (digit : Fin 16) : (glyphAddr digit).toNat = Params.fontBase + 5 * digit.val := by
  rw [glyphAddr, BitVec.toNat_ofNat, Nat.mod_eq_of_lt]
  rw [Params.fontBase, Config.glyphSize]
  omega

/-- The five bytes of a glyph lie in the reserved region below 0x200 (20_memory.md R43; FONT_BASE by D5, log entry 1). -/
theorem glyphAddr_inside_reserved (digit : Fin 16) : (glyphAddr digit).toNat + 5 ≤ 0x200 := by
  rw [toNat_glyphAddr, Params.fontBase]
  omega

/-- Settles O36: the glyph is that of the low nibble, the register modulo 16. -/
theorem indexPointsAtTheGlyph : Obligations.IndexPointsAtTheGlyph :=
  ⟨fun x => decode_ofNat_X (i := .ldFVx x) rfl rfl, rfl, fun x s =>
    ⟨_, rfl, rfl, toNat_glyphAddr (s.lowNibble x), glyphAddr_inside_reserved (s.lowNibble x)⟩⟩

end Machine

end Sys2Proof
end

section
/-! SUPPORT. The random instruction by what the host's source has at hand (44_random.md R106, R107). -/

namespace Sys2Proof

namespace Machine

/-- CXNN with a byte at hand: the oldest is consumed and masked into Vx. -/
theorem exec_rndVxByte_cons (x : Reg) (nn : Byte) {s : State} {b : Byte} {bs : List Byte}
    (h : s.randInput = b :: bs) :
    exec (.rndVxByte x nn) s = .next ((s.setRandInput bs).setReg x (b &&& nn)) := by
  rw [exec, execRndVxByte, State.drawByte_cons h]

/-- CXNN with none at hand: one free draw is counted and its value masked into Vx (log entry 2). -/
theorem exec_rndVxByte_nil (x : Reg) (nn : Byte) {s : State} (h : s.randInput = []) :
    exec (.rndVxByte x nn) s =
      .next ((s.setDraws (s.draws + 1)).setReg x (Config.randomByte s.draws &&& nn)) := by
  rw [exec, execRndVxByte, State.drawByte_nil h]

/-- Settles O37: the draw takes its byte from the source or from the free values, and what follows it writes Vx alone. -/
theorem randomConsumesOneByte : Obligations.RandomConsumesOneByte := by
  refine fun x nn s => ⟨fun b bs h => ?_, fun h => ?_⟩
  · exact ⟨_, exec_rndVxByte_cons x nn h, rfl, State.setReg_reg_self _ x _, State.setReg_reg_of_ne _ x _⟩
  · exact ⟨_, _, exec_rndVxByte_nil x nn h, rfl, rfl, State.setReg_reg_self _ x _, State.setReg_reg_of_ne _ x _⟩

end Machine

end Sys2Proof
end

section
/-! SUPPORT. The memory block instructions, said once (45_memory_block.md R108 to R111): the state each leaves with its range
inside memory, and what a block of registers or of digits reads as after the move. -/

namespace Sys2Proof

namespace Machine

/-- A byte of a written block reads as the byte of the list at its place. -/
theorem Memory.read_writeBytes_add (m : Memory) (a : Nat) {bs : List Byte} {k : Nat} (h : k < bs.length) :
    (m.writeBytes a bs).read (a + k) = bs.getD k 0 := by
  rw [Memory.read_writeBytes, if_pos (by omega), Nat.add_sub_cancel_left]

/-! ### V0..Vx -/

/-- Settles O39: the block stored is V0..Vx, its bytes read as the registers, and a read outside it sees the memory before. -/
theorem storeRegistersToMemory : Obligations.StoreRegistersToMemory := by
  refine ⟨fun x => decode_ofNat_X (i := .ldMemVx x) rfl rfl, rfl, fun x s hin => ?_,
    fun x s hout => ⟨_, State.accessing_outside (Nat.lt_succ_of_le hout)⟩⟩
  refine ⟨_, exec_ldMemVx_inside hin, rfl, rfl, fun k hk => ?_, fun a ha => ?_⟩
  · exact State.read_writeBytes_regsUpTo s s.MEM s.indexAddr hk
  · exact Memory.read_writeBytes_outside _ _ _ _ (by rw [State.length_regsUpTo, ← State.indexAddr]; omega)

/-- FX65 with its range inside memory loads the block at `I` and does nothing else (R110; `I` as log entry 1 has it). -/
theorem exec_ldVxMem_inside {x : Reg} {s : State} (h : s.indexAddr + x.val < 4096) :
    exec (.ldVxMem x) s = .next (s.loadRegs 0 (s.MEM.readBytes s.indexAddr (x.val + 1))) :=
  State.accessing_inside h

/-- After V0..Vx are loaded from `a`, register `k` up to `x` holds the byte at `a + k` and the others their value. -/
theorem State.loadRegs_readBytes_reg (s : State) (m : Memory) (a : Nat) (x k : Reg) :
    (s.loadRegs 0 (m.readBytes a (x.val + 1))).reg k = if k ≤ x then m.read (a + k.val) else s.reg k := by
  rw [State.loadRegs_reg s 0 _ (by rw [Memory.length_readBytes]; omega), Memory.length_readBytes]
  by_cases hk : k ≤ x
  · have hlt : k.val < x.val + 1 := Nat.lt_succ_of_le hk
    rw [if_pos hk, if_pos (by omega), Nat.sub_zero, Memory.getD_readBytes _ _ _ _ hlt]
  · have hle : ¬k.val ≤ x.val := hk
    rw [if_neg hk, if_neg (by omega)]

/-- Settles O40: loading writes V alone, and each register is the byte at its place in the block or keeps its value. -/
theorem loadRegistersFromMemory : Obligations.LoadRegistersFromMemory := by
  refine ⟨fun x => decode_ofNat_X (i := .ldVxMem x) rfl rfl, rfl, fun x s hin => ?_,
    fun x s hout => ⟨_, State.accessing_outside (Nat.lt_succ_of_le hout)⟩⟩
  have hframe := State.loadRegs_eq s 0 (s.MEM.readBytes s.indexAddr (x.val + 1))
  refine ⟨_, exec_ldVxMem_inside hin, ?_, ?_, State.loadRegs_readBytes_reg s s.MEM s.indexAddr x⟩
  · rw [hframe]
  · rw [hframe]; rfl

/-! ### The decimal digits -/

/-- FX33 with its range inside memory writes the three digits at `I` and nothing else (R111). -/
theorem exec_ldBVx_inside {x : Reg} {s : State} (h : s.indexAddr + 2 < 4096) :
    exec (.ldBVx x) s = .next (s.setMEM (s.MEM.writeBytes s.indexAddr (bcdDigits (s.reg x)))) :=
  State.accessing_inside h

/-- Memory with the digits of `v` written at `a` holds the hundreds, the tens and the ones, none cut off at 8 bits. -/
theorem Memory.toNat_read_writeBytes_bcdDigits (m : Memory) (a : Nat) (v : Byte) :
    ((m.writeBytes a (bcdDigits v)).read a).toNat = v.toNat / 100 ∧
      ((m.writeBytes a (bcdDigits v)).read (a + 1)).toNat = v.toNat / 10 % 10 ∧
      ((m.writeBytes a (bcdDigits v)).read (a + 2)).toNat = v.toNat % 10 := by
  have hv := v.isLt
  have digit (k : Fin 3) : (m.writeBytes a (bcdDigits v)).read (a + k.val) = (bcdDigits v).getD k.val 0 :=
    m.read_writeBytes_add a k.isLt
  refine ⟨?_, ?_, ?_⟩
  · exact (congrArg BitVec.toNat (digit 0)).trans (Nat.mod_eq_of_lt (by omega))
  · exact (congrArg BitVec.toNat (digit 1)).trans (Nat.mod_eq_of_lt (by omega))
  · exact (congrArg BitVec.toNat (digit 2)).trans (Nat.mod_eq_of_lt (by omega))

/-- Settles O41: hundreds, tens and ones make up a number below 256, and a read outside the three bytes sees the memory
before. -/
theorem storeDecimalDigits : Obligations.StoreDecimalDigits := by
  refine ⟨fun x => decode_ofNat_X (i := .ldBVx x) rfl rfl, fun x s hin => ?_,
    fun x s hout => ⟨_, State.accessing_outside (Nat.lt_succ_of_le hout)⟩⟩
  have hv := (s.reg x).isLt
  obtain ⟨hundreds, tens, ones⟩ := Memory.toNat_read_writeBytes_bcdDigits s.MEM s.indexAddr (s.reg x)
  refine ⟨_, exec_ldBVx_inside hin, rfl, ?_⟩
  rw [State.setMEM_MEM, hundreds, tens, ones]
  refine ⟨by omega, by omega, by omega, by omega, fun a ha => ?_⟩
  exact Memory.read_writeBytes_outside _ _ _ _ (Or.imp_right Nat.succ_le_of_lt ha)

end Machine

end Sys2Proof
end

section
/-! SUPPORT. The timers: what the three timer instructions leave (46_timers.md R112 to R114), and the host's tick of one
timer as the rule words it (R115). -/

namespace Sys2Proof

namespace Machine

/-- Settles O42: FX07 writes Vx alone, FX15 and FX18 one timer alone. -/
theorem timerInstructions : Obligations.TimerInstructions := by
  refine ⟨fun x => ⟨decode_ofNat_X (i := .ldVxDT x) rfl rfl, decode_ofNat_X (i := .ldDTVx x) rfl rfl,
    decode_ofNat_X (i := .ldSTVx x) rfl rfl⟩, fun x s => ⟨?_, rfl, rfl⟩⟩
  exact ⟨_, rfl, s.setReg_eq x s.DT, s.setReg_reg_self x s.DT, s.setReg_reg_of_ne x s.DT⟩

/-- The rule's two cases, above 0 and at 0, are the one truncated difference (R115). -/
theorem toNat_tickTimer_cases (t : Byte) :
    (tickTimer t).toNat = if t.toNat > 0 then t.toNat - 1 else 0 := by
  rw [toNat_tickTimer]
  split
  · rfl
  · omega

/-- Settles O53: the tick writes the two timers alone, each by `tickTimer`. -/
theorem tickDecrementsBothTimers : Obligations.TickDecrementsBothTimers := fun h =>
  ⟨_, rfl, h.machine.tickTimers_eq, toNat_tickTimer_cases h.machine.DT, toNat_tickTimer_cases h.machine.ST⟩

end Machine

end Sys2Proof
end

section
/-! SUPPORT. Keypad input: the two key skips by the key they name, and the wait by its entry and its step
(47_input.md R119 to R123). -/

namespace Sys2Proof

namespace Machine

/-- The low nibble of a register names the key that is the register modulo 16 (R119; D15). -/
theorem State.lowNibble_eq_of_val {s : State} {x : Reg} {k : Key} (h : k.val = (s.reg x).toNat % 16) :
    s.lowNibble x = k :=
  Fin.ext h.symm

/-- EX9E skips when the key it names is pressed (R120). -/
theorem exec_skpVx_of_key {x : Reg} {s : State} {k : Key} (h : s.lowNibble x = k) :
    exec (.skpVx x) s = .next { s with pc := if s.key k = true then s.pc + 2 else s.pc } := by
  rw [exec, execSkpVx, h, s.skipIf_of_iff Iff.rfl]

/-- EXA1 skips when the key it names is released (R121). -/
theorem exec_sknpVx_of_key {x : Reg} {s : State} {k : Key} (h : s.lowNibble x = k) :
    exec (.sknpVx x) s = .next { s with pc := if s.key k = true then s.pc else s.pc + 2 } := by
  have hreleased : (!s.key k) = true ↔ ¬s.key k = true := by rw [Bool.not_eq_true', Bool.not_eq_true]
  rw [exec, execSknpVx, h, s.skipIf_of_iff_not hreleased]

/-- Settles O26: the words are the X form's, and each skip looks at the key the low nibble names. -/
theorem keySkips : Obligations.KeySkips :=
  ⟨fun x => ⟨decode_ofNat_X (i := .skpVx x) rfl rfl, decode_ofNat_X (i := .sknpVx x) rfl rfl⟩, fun _ _ _ hk =>
    ⟨exec_skpVx_of_key (State.lowNibble_eq_of_val hk), exec_sknpVx_of_key (State.lowNibble_eq_of_val hk)⟩⟩

/-- Settles O43: the word is the X form's, and the instruction writes the engine alone. -/
theorem waitForKeyEntersTheWait : Obligations.WaitForKeyEntersTheWait :=
  ⟨fun x => decode_ofNat_X (i := .ldVxK x) rfl rfl, fun _ _ => rfl⟩

/-- A key's index is a byte, so the wait step cuts nothing off it (R123). -/
theorem toNat_ofNat_key (k : Key) : (BitVec.ofNat 8 k.val : Byte).toNat = k.val := by
  rw [BitVec.toNat_ofNat, Nat.mod_eq_of_lt (by omega)]

/-- Settles O8, by whether a key is pressed: the least one is written to the waiting register alone. -/
theorem waitStepTakesTheLeastPressedKey : Obligations.WaitStepTakesTheLeastPressedKey := by
  refine fun s r hw => ⟨step_of_none_pressed hw, fun k hk hl => ⟨_, step_of_pressed hw hk hl, rfl, ?_, fun q hq => ?_⟩⟩
  · rw [State.setEngine_reg, State.setReg_reg_self, toNat_ofNat_key]
  · rw [State.setEngine_reg, State.setReg_reg_of_ne s r _ q hq]

end Machine

end Sys2Proof
end

section
/-! SUPPORT. The display instructions, said once: the word of DXYN, the frame of a completed draw, what it leaves in each
pixel and in VF, and what the same draw does a second time (48_display.md R125 to R128). -/

namespace Sys2Proof

/-- The word of DXYN, its fixed bits plus the operands, decodes to the instruction (30_encoding.md R53, R54). -/
theorem decode_ofNat_XYN (x y : Reg) {n : Nat} (hn : n < 16) :
    decode (BitVec.ofNat 16 (0xD000 + 0x100 * x.val + 0x10 * y.val + n)) = .instr (.drwVxVyNibble x y n) := by
  have hbits : (Instr.drwVxVyNibble x y n).operandBits = 0x100 * x.val + 0x10 * y.val + n :=
    congrArg (bitsXY x y + ·) (Nat.mod_eq_of_lt hn)
  rw [Nat.add_assoc, Nat.add_assoc, ← Nat.add_assoc (0x100 * x.val), ← hbits]
  exact decodeOfEncodeIsTheInstruction (.drwVxVyNibble x y n) (decide_eq_true hn)

namespace Machine

/-- Settles O44. -/
theorem clearScreenZeroesEveryPixel : Obligations.ClearScreenZeroesEveryPixel :=
  ⟨rfl, fun _ => ⟨_, rfl, rfl, Display.pixel_blank⟩⟩

/-! ### One draw -/

/-- A completed draw writes V and the display alone (R126). -/
theorem State.drawn_eq (s : State) (x y : Reg) (n : Nat) :
    s.drawn x y n = { s with V := (s.drawn x y n).V, DISP := (s.drawn x y n).DISP } := rfl

theorem State.drawn_reg_of_ne (s : State) (x y : Reg) (n : Nat) (r : Reg) (h : r ≠ VF) :
    (s.drawn x y n).reg r = s.reg r :=
  State.setReg_reg_of_ne (s.setDISP _) VF _ r h

theorem State.drawn_reg_VF (s : State) (x y : Reg) (n : Nat) :
    (s.drawn x y n).reg VF = boolByte (s.drawing x y n).collision :=
  State.setReg_reg_self (s.setDISP _) VF _

theorem State.drawn_reg_VF_eq_zero_or_one (s : State) (x y : Reg) (n : Nat) :
    (s.drawn x y n).reg VF = 0 ∨ (s.drawn x y n).reg VF = 1 := by
  rw [State.drawn_reg_VF, boolByte_eq_zero, boolByte_eq_one]
  exact (Bool.eq_false_or_eq_true _).symm

/-- The display column and row are those of bit `7 - c` of sprite row `r` of DXYN (R126). -/
def State.SpriteAt (s : State) (x y : Reg) (r c : Nat) (col : Fin 64) (row : Fin 32) : Prop :=
  col.val = ((s.reg x).toNat + c) % 64 ∧ row.val = ((s.reg y).toNat + r) % 32

/-- Bit `7 - c` of sprite row `r` at `I`: the most significant bit is the leftmost pixel (R126). -/
def State.spriteBit (s : State) (r c : Nat) : Bool := (s.MEM.read (s.indexAddr + r)).getLsbD (7 - c)

theorem State.SpriteAt.eq_mod {s : State} {x y : Reg} {r c : Nat} {col : Fin 64} {row : Fin 32}
    (h : s.SpriteAt x y r c col row) : col = colMod ((s.reg x).toNat + c) ∧ row = rowMod ((s.reg y).toNat + r) :=
  ⟨Fin.ext h.1, Fin.ext h.2⟩

theorem State.spriteAt_mod (s : State) (x y : Reg) (r c : Nat) :
    s.SpriteAt x y r c (colMod ((s.reg x).toNat + c)) (rowMod ((s.reg y).toNat + r)) :=
  ⟨rfl, rfl⟩

section
variable {n : Nat} (hn : n < 16) (s : State) (x y : Reg)
include hn

/-- The pixel under a sprite bit is XORed with it (R127). -/
theorem State.drawn_pixel_of_spriteAt {r c : Nat} {col : Fin 64} {row : Fin 32} (hr : r < n) (hc : c < 8)
    (h : s.SpriteAt x y r c col row) :
    (s.drawn x y n).DISP.pixel col row = (s.DISP.pixel col row ^^ s.spriteBit r c) := by
  obtain ⟨rfl, rfl⟩ := h.eq_mod
  obtain ⟨hunder, -, -⟩ := s.drawing_spec x y n hn
  exact hunder r c hr hc

/-- A pixel under no sprite bit keeps its value. -/
theorem State.drawn_pixel_outside {col : Fin 64} {row : Fin 32}
    (h : ¬∃ r c, r < n ∧ c < 8 ∧ s.SpriteAt x y r c col row) :
    (s.drawn x y n).DISP.pixel col row = s.DISP.pixel col row := by
  obtain ⟨-, houtside, -⟩ := s.drawing_spec x y n hn
  exact houtside col row fun r c hr hc hcol hrow =>
    h ⟨r, c, hr, hc, congrArg Fin.val hcol, congrArg Fin.val hrow⟩

/-- VF is 1 exactly when a set sprite bit meets a set pixel (R126). -/
theorem State.drawn_reg_VF_eq_one_iff :
    (s.drawn x y n).reg VF = 1 ↔ ∃ (r c : Nat) (col : Fin 64) (row : Fin 32), r < n ∧ c < 8 ∧
      s.SpriteAt x y r c col row ∧ s.spriteBit r c = true ∧ s.DISP.pixel col row = true := by
  obtain ⟨-, -, hcollision⟩ := s.drawing_spec x y n hn
  rw [State.drawn_reg_VF, boolByte_eq_one, hcollision]
  constructor
  · rintro ⟨r, c, hr, hc, hbit, hpix⟩
    exact ⟨r, c, _, _, hr, hc, s.spriteAt_mod x y r c, hbit, hpix⟩
  · rintro ⟨r, c, col, row, hr, hc, hat, hbit, hpix⟩
    obtain ⟨rfl, rfl⟩ := hat.eq_mod
    exact ⟨r, c, hr, hc, hbit, hpix⟩

/-- A set sprite bit meets a set pixel exactly when some pixel goes from 1 to 0. -/
theorem State.drawn_reg_VF_eq_one_iff_cleared :
    (s.drawn x y n).reg VF = 1 ↔ ∃ (col : Fin 64) (row : Fin 32),
      s.DISP.pixel col row = true ∧ (s.drawn x y n).DISP.pixel col row = false := by
  rw [s.drawn_reg_VF_eq_one_iff hn x y]
  constructor
  · rintro ⟨r, c, col, row, hr, hc, hat, hbit, hpix⟩
    refine ⟨col, row, hpix, ?_⟩
    rw [s.drawn_pixel_of_spriteAt hn x y hr hc hat, hpix, hbit]
    rfl
  · rintro ⟨col, row, hpix, hcleared⟩
    by_cases hunder : ∃ r c, r < n ∧ c < 8 ∧ s.SpriteAt x y r c col row
    · obtain ⟨r, c, hr, hc, hat⟩ := hunder
      rw [s.drawn_pixel_of_spriteAt hn x y hr hc hat, hpix, Bool.true_xor, Bool.not_eq_false'] at hcleared
      exact ⟨r, c, col, row, hr, hc, hat, hcleared, hpix⟩
    · rw [s.drawn_pixel_outside hn x y hunder, hpix] at hcleared
      cases hcleared

end

/-- Settles O45: an XOR with a set bit inverts the pixel and with a clear bit keeps it, and no other pixel is drawn on. -/
theorem drawXorsTheSprite : Obligations.DrawXorsTheSprite := by
  refine fun x y n s hn hin => ⟨_, exec_drw_inside hin, fun r c col row hr hc hcol hrow => ?_, fun col row hout => ?_⟩
  · rw [s.drawn_pixel_of_spriteAt hn x y hr hc ⟨hcol, hrow⟩, State.spriteBit]
    split
    case isTrue hbit => rw [hbit, Bool.xor_true]
    case isFalse hbit => rw [Bool.eq_false_of_not_eq_true hbit, Bool.xor_false]
  · exact s.drawn_pixel_outside hn x y hout

/-- Settles O46: a completed draw writes the display and VF alone, and an access outside memory raises the error. -/
theorem drawSetsTheCollisionFlag : Obligations.DrawSetsTheCollisionFlag := by
  refine ⟨fun x y n hn => decode_ofNat_XYN x y hn, fun x y n s hn hin => ?_, fun x y n s h0 hn hout => ?_⟩
  · exact ⟨_, exec_drw_inside hin, s.drawn_eq x y n, s.drawn_reg_of_ne x y n, s.drawn_reg_VF_eq_zero_or_one x y n,
      s.drawn_reg_VF_eq_one_iff_cleared hn x y⟩
  · exact exec_drw_outside h0.ne' hout

/-! ### The same draw twice -/

/-- A byte other than 0 has a set bit, counted from the left as a sprite's are. -/
theorem ne_zero_iff_exists_getLsbD (b : Byte) : b ≠ 0 ↔ ∃ c, c < 8 ∧ b.getLsbD (7 - c) = true := by
  constructor
  · intro h
    by_contra hclear
    refine h (BitVec.eq_of_getLsbD_eq fun i hi => ?_)
    have hbit : b.getLsbD (7 - (7 - i)) ≠ true := fun hb => hclear ⟨7 - i, by omega, hb⟩
    rw [show 7 - (7 - i) = i by omega] at hbit
    rw [Bool.eq_false_of_not_eq_true hbit]
    exact BitVec.getLsbD_zero.symm
  · rintro ⟨c, -, hbit⟩ rfl
    cases BitVec.getLsbD_zero.symm.trans hbit

section
variable {n : Nat} (hn : n < 16) (s : State) {x y : Reg}

/-- With the coordinates in registers other than VF, the second draw has its sprite where the first had it (R128). -/
theorem State.drawn_spriteAt (hx : x ≠ VF) (hy : y ≠ VF) (r c : Nat) (col : Fin 64) (row : Fin 32) :
    (s.drawn x y n).SpriteAt x y r c col row ↔ s.SpriteAt x y r c col row := by
  rw [State.SpriteAt, s.drawn_reg_of_ne x y n x hx, s.drawn_reg_of_ne x y n y hy, State.SpriteAt]

theorem State.drawn_spriteBit (r c : Nat) : (s.drawn x y n).spriteBit r c = s.spriteBit r c := rfl

variable (hx : x ≠ VF) (hy : y ≠ VF)
include hn hx hy

/-- Each pixel is XORed with its sprite bit twice (R128). -/
theorem State.drawn_drawn_DISP : ((s.drawn x y n).drawn x y n).DISP = s.DISP := by
  refine Display.ext_pixel fun col row => ?_
  by_cases hunder : ∃ r c, r < n ∧ c < 8 ∧ s.SpriteAt x y r c col row
  · obtain ⟨r, c, hr, hc, hat⟩ := hunder
    rw [State.drawn_pixel_of_spriteAt hn _ x y hr hc ((s.drawn_spriteAt hx hy ..).mpr hat), State.drawn_spriteBit,
      s.drawn_pixel_of_spriteAt hn x y hr hc hat, Bool.xor_assoc, Bool.xor_self, Bool.xor_false]
  · rw [State.drawn_pixel_outside hn _ x y (by simpa only [s.drawn_spriteAt hx hy] using hunder),
      s.drawn_pixel_outside hn x y hunder]

theorem State.drawn_drawn_eq :
    (s.drawn x y n).drawn x y n = { s with V := ((s.drawn x y n).drawn x y n).V } := by
  conv_rhs => rw [← s.drawn_drawn_DISP hn hx hy]
  rfl

/-- The second VF is 1 exactly when a set sprite bit meets a pixel that was 0 before the first draw (log entry 13). -/
theorem State.drawn_drawn_reg_VF_eq_one_iff :
    ((s.drawn x y n).drawn x y n).reg VF = 1 ↔ ∃ (r c : Nat) (col : Fin 64) (row : Fin 32), r < n ∧ c < 8 ∧
      s.SpriteAt x y r c col row ∧ s.spriteBit r c = true ∧ s.DISP.pixel col row = false := by
  rw [State.drawn_reg_VF_eq_one_iff hn]
  refine exists₄_congr fun r c col row => and_congr_right fun hr => and_congr_right fun hc => ?_
  rw [s.drawn_spriteAt hx hy, State.drawn_spriteBit]
  refine and_congr_right fun hat => and_congr_right fun hbit => ?_
  rw [s.drawn_pixel_of_spriteAt hn x y hr hc hat, hbit, Bool.xor_true, Bool.not_eq_true']

/-- Where the first draw meets no set pixel, the second VF is 1 exactly when the sprite has a set bit (R128). -/
theorem State.drawn_drawn_reg_VF_eq_one_iff_of_no_collision (h : (s.drawn x y n).reg VF = 0) :
    ((s.drawn x y n).drawn x y n).reg VF = 1 ↔ ∃ r, r < n ∧ s.MEM.read (s.indexAddr + r) ≠ 0 := by
  rw [s.drawn_drawn_reg_VF_eq_one_iff hn hx hy]
  constructor
  · rintro ⟨r, c, col, row, hr, hc, -, hbit, -⟩
    exact ⟨r, hr, (ne_zero_iff_exists_getLsbD _).mpr ⟨c, hc, hbit⟩⟩
  · rintro ⟨r, hr, hbyte⟩
    obtain ⟨c, hc, hbit⟩ := (ne_zero_iff_exists_getLsbD _).mp hbyte
    have hat := s.spriteAt_mod x y r c
    refine ⟨r, c, _, _, hr, hc, hat, hbit, Bool.eq_false_of_not_eq_true fun hpix => ?_⟩
    have hcollision := (s.drawn_reg_VF_eq_one_iff hn x y).mpr ⟨r, c, _, _, hr, hc, hat, hbit, hpix⟩
    rw [h] at hcollision
    cases hcollision

end

/-- Settles O47: the second draw reads the same coordinates and sprite, and starts from the pixels the first one left. -/
theorem drawingTwiceRestoresTheDisplay : Obligations.DrawingTwiceRestoresTheDisplay := by
  intro x y n s hx hy hn hin
  refine ⟨_, _, exec_drw_inside hin, exec_drw_inside hin, s.drawn_drawn_eq hn hx hy, fun r hr => ?_, ?_,
    s.drawn_drawn_reg_VF_eq_one_iff_of_no_collision hn hx hy⟩
  · rw [State.drawn_reg_of_ne _ x y n r hr, State.drawn_reg_of_ne _ x y n r hr]
  · rw [s.drawn_drawn_reg_VF_eq_one_iff hn hx hy]
    simp only [State.SpriteAt, State.spriteBit, and_assoc]

end Machine

end Sys2Proof
end

section
/-! SUPPORT. The execution errors by their causes: which instructions access memory and how far from `I`, and the three
ways an instruction leaves a running machine faulted (60_exceptions.md R131 to R136). -/

namespace Sys2Proof

/-- The instruction accesses that many bytes of memory from `I` on (48_display.md R126; 45_memory_block.md R108 to R111). -/
inductive Instr.Accesses : Instr → Nat → Prop
  | drwVxVyNibble (x y : Reg) {n : Nat} : 0 < n → Accesses (.drwVxVyNibble x y n) n
  | ldBVx (x : Reg) : Accesses (.ldBVx x) 3
  | ldMemVx (x : Reg) : Accesses (.ldMemVx x) (x.val + 1)
  | ldVxMem (x : Reg) : Accesses (.ldVxMem x) (x.val + 1)

namespace Machine

/-- The cause of an execution error: an access that leaves memory, a call at depth 16, or a return at depth 0 (R131,
R132). -/
inductive State.ErrorCause (s : State) : Instr → ErrorKind → Prop
  | access {i : Instr} {len : Nat} : i.Accesses len → 4096 < s.indexAddr + len →
      ErrorCause s i (.memoryFault (max s.indexAddr 4096))
  | call (addr : Addr) : s.SP.toNat = 16 → ErrorCause s (.callAddr addr) .stackOverflow
  | ret : s.SP.toNat = 0 → ErrorCause s .ret .stackUnderflow

/-- A running machine whose engine is kept is not faulted. -/
theorem State.not_faulted_of_engine_eq {s t : State} {e : ErrorRecord} (hrun : s.engine = .running)
    (hkeep : t.engine = s.engine) : t.engine ≠ .faulted e := by
  rw [hkeep, hrun]
  nofun

theorem State.skipIf_engine (s : State) (c : Bool) : (s.skipIf c).engine = s.engine :=
  (congrArg State.engine (s.skipIf_frame c) :)

theorem State.drawByte_engine (s : State) : s.drawByte.2.engine = s.engine :=
  (congrArg State.engine s.drawByte_state :)

theorem State.loadRegs_engine (s : State) (k : Nat) (bs : List Byte) : (s.loadRegs k bs).engine = s.engine :=
  (congrArg State.engine (s.loadRegs_eq k bs) :)

section
variable {i : Instr} {s t : State} {e : ErrorRecord}

/-- A range-checked access that faults a running machine has left memory. -/
theorem State.accessing_errorCause {done : State} {len : Nat} (h : s.accessing s.indexAddr len done = .next t)
    (hacc : i.Accesses len) (hrun : s.engine = .running) (hdone : done.engine = s.engine)
    (he : t.engine = .faulted e) : s.ErrorCause i e.kind := by
  rcases State.accessing_cases h with ⟨-, rfl⟩ | ⟨hout, rfl⟩
  · exact absurd he (State.not_faulted_of_engine_eq hrun hdone)
  · cases he
    exact .access hacc hout

/-- An instruction that leaves a running machine faulted has had one of the causes. -/
theorem exec_errorCause (h : exec i s = .next t) (hrun : s.engine = .running) (he : t.engine = .faulted e) :
    s.ErrorCause i e.kind := by
  cases i
  case callAddr addr =>
    rcases exec_callAddr_cases h with ⟨hSP, rfl⟩ | ⟨-, rfl⟩
    · cases he
      exact .call addr hSP
    · exact absurd he (State.not_faulted_of_engine_eq hrun rfl)
  case ret =>
    rcases exec_ret_cases h with ⟨hSP, rfl⟩ | ⟨-, -, rfl⟩
    · cases he
      exact .ret hSP
    · exact absurd he (State.not_faulted_of_engine_eq hrun rfl)
  case drwVxVyNibble x y n =>
    rcases exec_drw_cases h with ⟨-, rfl⟩ | ⟨h0, hout, rfl⟩
    · exact absurd he (State.not_faulted_of_engine_eq hrun rfl)
    · cases he
      exact .access (.drwVxVyNibble x y (Nat.pos_of_ne_zero h0)) hout
  case ldBVx x => exact State.accessing_errorCause h (.ldBVx x) hrun rfl he
  case ldMemVx x => exact State.accessing_errorCause h (.ldMemVx x) hrun rfl he
  case ldVxMem x => exact State.accessing_errorCause h (.ldVxMem x) hrun (State.loadRegs_engine ..) he
  case ldVxK => cases h; cases he
  case seVxByte | sneVxByte | seVxVy | sneVxVy | skpVx | sknpVx =>
    cases h
    exact absurd he (State.not_faulted_of_engine_eq hrun (State.skipIf_engine ..))
  case rndVxByte =>
    cases h
    exact absurd he (State.not_faulted_of_engine_eq hrun s.drawByte_engine)
  all_goals
    cases h
    exact absurd he (State.not_faulted_of_engine_eq hrun rfl)

end

/-- Settles O11, by the cause: the lowest address outside memory from `I` on is the greater of `I` and 4096, and it lies in
the range the instruction accesses. -/
theorem executionErrorsHaveTheirListedCauses : Obligations.ExecutionErrorsHaveTheirListedCauses := by
  rintro i s t ⟨kind, p⟩ hrun h he
  cases exec_errorCause h hrun he with
  | access hacc hout =>
    rw [State.indexAddr] at hout ⊢
    refine ⟨le_max_right _ _, le_max_left _ _, fun b hI hb => max_le hI hb, ?_⟩
    cases hacc with
    | drwVxVyNibble x y hpos => exact .inl ⟨x, y, _, rfl, hpos, by omega⟩
    | ldBVx x => exact .inr (.inl ⟨x, rfl, by omega⟩)
    | ldMemVx x => exact .inr (.inr (.inl ⟨x, rfl, by omega⟩))
    | ldVxMem x => exact .inr (.inr (.inr ⟨x, rfl, by omega⟩))
  | call addr hSP => exact ⟨⟨addr, rfl⟩, BitVec.eq_of_toNat_eq hSP⟩
  | ret hSP => exact ⟨rfl, BitVec.eq_of_toNat_eq hSP⟩

end Machine

end Sys2Proof
end

section
/-! SUPPORT. The state after creation, the one load, and the boot order: what memory reads as at creation and after a load,
and how each host operation moves the phase (70_reset_and_hazards.md R146 to R150; log entry 10). -/

namespace Sys2Proof

namespace Machine

/-! ### The state after creation -/

/-- Below the font every byte of memory is 0 at creation (10_state.md R30). -/
theorem Memory.resetByte_before_font {a : Nat} (h : a < 0x050) : Memory.resetByte a = 0 := if_pos h

/-- At creation memory holds the font at FONT_BASE (10_state.md R31). -/
theorem State.reset_readBytes_font : State.reset.MEM.readBytes Params.fontBase 80 = Params.fontData := by
  decide

/-- Settles O57: the registers, slots and keys are vectors of one value, and memory lists nothing. -/
theorem resetState : Obligations.ResetState := by
  refine ⟨fun r => Vector.getElem_replicate _, rfl, rfl, rfl, fun k => Vector.getElem_replicate _, rfl, rfl,
    fun k => Vector.getElem_replicate _, Display.pixel_blank, rfl, fun a ha => ?_, State.reset_readBytes_font⟩
  exact ha.elim Memory.resetByte_before_font Memory.resetByte_past_font

/-! ### The load -/

/-- A byte of a written block reads as the one the list holds at its place. -/
theorem Memory.read_writeBytes_of_getElem? (m : Memory) (a : Nat) {bs : List Byte} {k : Nat} {b : Byte}
    (h : bs[k]? = some b) : (m.writeBytes a bs).read (a + k) = b := by
  obtain ⟨hk, hb⟩ := List.getElem?_eq_some_iff.mp h
  rw [Memory.read_writeBytes_add m a hk, List.getD_eq_getElem _ _ hk, hb]

/-- Settles O55: a ROM that fits is written as a block at 0x200, and a longer one is an error that changes nothing. -/
theorem loadCopiesTheRom : Obligations.LoadCopiesTheRom := by
  refine ⟨fun h bytes hp hl => ?_, fun h bytes hp hl => hostStep_load_too_large hp hl⟩
  exact ⟨_, hostStep_load_fits hp hl, rfl, fun k b hb => Memory.read_writeBytes_of_getElem? _ _ hb,
    fun a ha => Memory.read_writeBytes_outside _ _ _ _ ha⟩

/-- No operation admitted before a load or a step writes memory without moving the boot order on. -/
theorem Reachable.memory_of_created {h : Session} (hr : Reachable h) (hp : h.phase = .created) :
    h.machine.MEM = State.reset.MEM := by
  induction hr with
  | created => rfl
  | operated _ hg ih =>
    rcases hostStep_cases hg with ⟨_, -, -, -, rfl⟩ | ⟨_, -, -, -, rfl⟩ | ⟨_, _, -, -, rfl⟩ | ⟨-, rfl⟩ |
      ⟨_, _, -, rfl⟩ | ⟨-, rfl⟩
    · cases hp
    · exact ih hp
    · cases hp
    · exact ih hp
    · exact ih hp
    · exact ih hp
  | steppedFree => cases hp

/-- After the one load only a step writes memory or moves the boot order on. -/
theorem hostStep_memory_of_loaded {h g : Session} {op : HostOp} {a : HostReply} (hp : h.phase = .loaded)
    (hg : hostStep op h = .next (g, a)) (hns : ∀ rand, op ≠ .step rand) :
    g.machine.MEM = h.machine.MEM ∧ g.phase = .loaded := by
  rcases hostStep_cases hg with ⟨_, -, hc, -⟩ | ⟨_, -, hc, -⟩ | ⟨rand, _, hop, -⟩ | ⟨-, rfl⟩ | ⟨_, _, -, rfl⟩ |
    ⟨-, rfl⟩
  · rw [hp] at hc; cases hc
  · rw [hp] at hc; cases hc
  · exact absurd hop (hns rand)
  · exact ⟨rfl, hp⟩
  · exact ⟨rfl, hp⟩
  · exact ⟨rfl, hp⟩

/-- Settles O60: before the load memory is that of creation, so past the ROM, and so past the font, it reads as 0. -/
theorem loadedMemoryIsTheRomAndNothingElse : Obligations.LoadedMemoryIsTheRomAndNothingElse := by
  refine fun h hr => ⟨fun hp => ?_, fun hp op g a => hostStep_memory_of_loaded hp⟩
  have hmem := hr.memory_of_created hp
  refine ⟨hmem, fun bytes hl => ⟨_, hostStep_load_fits hp hl, rfl,
    fun k b hb => Memory.read_writeBytes_of_getElem? _ _ hb, fun a ha => ?_, fun a hrom _ => ?_⟩⟩
  · rw [State.setMEM_MEM, Memory.read_writeBytes_outside _ _ _ _ (.inl ha), hmem]
  · rw [State.setMEM_MEM, Memory.read_writeBytes_outside _ _ _ _ (.inr hrom), hmem]
    exact Memory.resetByte_past_font (by omega)

/-! ### The boot order -/

/-- A load succeeds and moves the order on, or fails and changes nothing (R149, R150). -/
theorem hostStep_load_cases {bytes : List Byte} {h g : Session} {a : HostReply}
    (hg : hostStep (.load bytes) h = .next (g, a)) :
    (a = .done ∧ g.phase = .loaded) ∨ (a = .loadError .romTooLarge ∧ g = h) := by
  by_cases hp : h.phase = .created
  · by_cases hl : bytes.length ≤ 4096 - 0x200
    · rw [hostStep_load_fits hp hl] at hg
      cases hg
      exact .inl ⟨rfl, rfl⟩
    · rw [hostStep_load_too_large hp (by omega)] at hg
      cases hg
      exact .inr ⟨rfl, rfl⟩
  · rw [hostStep_load_refused hp] at hg
    cases hg

theorem hostStep_step_phase {rand : Byte} {h g : Session} {a : HostReply}
    (hg : hostStep (.step rand) h = .next (g, a)) : g.phase = .stepped := by
  simp only [hostStep, Session.step] at hg
  split at hg <;> cases hg
  rfl

/-- Settles O59: only a load and a step move the order, and only the first load is admitted. -/
theorem bootOrderIsKept : Obligations.BootOrderIsKept := by
  refine ⟨fun h bytes hp => hostStep_load_refused hp, fun h g op a hg => ?_, rfl, rfl⟩
  cases op with
  | load bytes => exact hostStep_load_cases hg
  | step rand => exact hostStep_step_phase hg
  | tickTimers | setKey | readDisplay | readSound | readStatus => cases hg; rfl

end Machine

end Sys2Proof
end
